-- ==== Sys2Proof/Word.lean ====
section
/-! DEFINITION. The word types of the block: the byte the transport moves and the 16-bit value a
command echo is made of (20_memory.md R53, R57; 00_scope.md R10: every integer is unsigned). -/

namespace Sys2Proof

/-- `u8`: one transport word ("8 bits per word", 20_memory.md R57), one program-register value (R54). -/
abbrev Byte := BitVec 8

/-- `u16`: the command result and the raw conversion code (00_scope.md R9 `RAW_BITS` = 16). -/
abbrev Word := BitVec 16

end Sys2Proof
end

