-- ==== Sys2Proof/Syntax.lean ====
section
/-! DEFINITION. The syntax of the block: the mnemonics of 00_scope.md R6, the host call as the host
writes it (30_encoding.md R85, R86), and the ONE inductive `Instr`, one constructor per row of
spec/opcode_table.json. -/

namespace Sys2Proof

/-- The nineteen mnemonics of the exposed interface (00_scope.md R6). -/
inductive Mnemonic where
  | openInst | close | noop | stdby | pwrdn | rst | autorst | man | wreg | rreg
  | setrange | setgrange | setseq | setpd | setseqpd | r2v | v2r | getmode | getfeat
  deriving DecidableEq, Repr

/-- An operand as the host writes it (30_encoding.md R86): a number (any rational), a range name
`R<n>`, or the auxiliary channel's name `AUX`.  Its type is checked when the call is transcribed. -/
inductive Operand where
  | num (q : Rat)
  | range (n : Nat)
  | aux
  deriving DecidableEq, Repr

/-- One host call, before it is transcribed into an operation. -/
inductive HostCall where
  /-- A call by mnemonic with its operands (30_encoding.md R85). -/
  | call (m : Mnemonic) (args : List Operand)
  /-- A call named by its row's word in spec/opcode_table.json: the out bytes of the operation's
  first exchange.  It names a row of the table and nothing else (log entry 3). -/
  | word (bytes : List Byte)
  /-- A command given as a raw opcode byte: no operation (30_encoding.md R82, 60_exceptions.md R220). -/
  | rawOpcode (op : Byte)
  /-- A call issued while another operation on the instance is in progress (60_exceptions.md R231). -/
  | overlapping (m : Mnemonic) (args : List Operand)
  deriving DecidableEq, Repr

/-- The commands of 41_commands.md R120, as the transition function and the opcode table key them. -/
inductive Cmd where
  | noop | stdby | pwrdn | rst | autorst
  /-- `MAN ch`, ch in 0..8 (8 is `AUX`) -/
  | man (ch : Fin 9)
  deriving DecidableEq, Repr

/-- The nine range enumerators (44_scaling.md R190). -/
inductive Range where
  | r0 | r1 | r2 | r3 | r4 | r5 | r6 | r7 | r8
  deriving DecidableEq, Repr

/-- The operations, one constructor per row of spec/opcode_table.json.  Operands have the types of
30_encoding.md R85: `v`, `m` are u8, `raw` is u16, `ch`, `r`, `addr` are naturals that the operation
itself checks, `volts` and `vref` are rationals, and the other construction constants are any number. -/
inductive Instr where
  | noop
  | stdby
  | pwrdn
  | rst
  | autorst
  | man0
  | man1
  | man2
  | man3
  | man4
  | man5
  | man6
  | man7
  /-- The row `MAN_AUX` with its note: `ch = 8` is the auxiliary channel, and a `ch` above 8, which
  no other row of `MAN` takes, "fails with InvalidChannel and emits nothing". -/
  | manAux (ch : Nat)
  | wreg (addr : Nat) (v : Byte)
  | rreg (addr : Nat)
  | openInst (busId deviceId csLine vref spiHz : Rat)
  | close
  | getmode
  | getfeat
  | setrange (ch r : Nat)
  | setgrange (r : Nat)
  | setseq (m : Byte)
  | setpd (m : Byte)
  | setseqpd (m : Byte)
  | r2v (raw : Word) (r : Nat)
  | v2r (volts : Rat) (r : Nat)
  deriving DecidableEq, Repr

end Sys2Proof
end

