-- ==== Sys2Proof/WellFormed.lean ====
section
/-! DEFINITION. Which terms of `Instr` stand for a host call.  The operand types of 30_encoding.md
R85 are the constructors' own types; the naturals (`ch`, `r`, `addr`) may take every value, because
the operation itself checks them and answers an error.  One check is left. -/

namespace Sys2Proof

/-- `MAN 0` to `MAN 7` have constructors of their own (30_encoding.md R73), so the row `MAN_AUX`
takes a channel of 8 or more. -/
def Instr.wf : Instr → Bool
  | .manAux ch => decide (8 ≤ ch)
  | .noop | .stdby | .pwrdn | .rst | .autorst => true
  | .man0 | .man1 | .man2 | .man3 | .man4 | .man5 | .man6 | .man7 => true
  | .wreg _ _ | .rreg _ => true
  | .openInst _ _ _ _ _ | .close | .getmode | .getfeat => true
  | .setrange _ _ | .setgrange _ | .setseq _ | .setpd _ | .setseqpd _ => true
  | .r2v _ _ | .v2r _ _ => true

end Sys2Proof
end

