-- ==== Sys2Proof/Decode.lean ====
section
/-! DEFINITION. Transcription of a host call into an operation, total and rejecting by name
(30_encoding.md R82, R83, R85; 60_exceptions.md R220), the encoder beside it, and the host's
opcode-table interface.  The words are those of spec/opcode_table.json: the out bytes of a command's
or a register access's first exchange, most significant byte first. -/

namespace Sys2Proof

/-- Why a host call is not transcribed into an operation. -/
inductive DecodeError where
  /-- A word that is neither two nor three bytes long (30_encoding.md R84). -/
  | frameLength
  /-- A command word whose opcode is not one of the fourteen (30_encoding.md R82). -/
  | unknownOpcode
  /-- A register word with bit 7 of byte 0 set (30_encoding.md R83). -/
  | reservedFrame
  /-- A filler byte that is not 0x00 (30_encoding.md R72, R83). -/
  | fillerNotZero
  /-- A mnemonic with the wrong number of operands (30_encoding.md R85). -/
  | operandCount
  /-- An operand that does not fit its declared type (60_exceptions.md R220). -/
  | operandType
  /-- A raw opcode byte (60_exceptions.md R220, 92_eei_decisions.md D10). -/
  | rawOpcode
  /-- A call issued while another is in progress (60_exceptions.md R231). -/
  | overlapping
  deriving DecidableEq, Repr

/-! ### Operand types (30_encoding.md R85) -/

/-- A rational that is a natural number. -/
def natOfRat (q : Rat) : Option Nat :=
  if q.den = 1 ∧ 0 ≤ q.num then some q.num.toNat else none

/-- A natural operand (`addr`). -/
def Operand.natural : Operand → Option Nat
  | .num q => natOfRat q
  | .range _ | .aux => none

/-- A channel operand: a natural, or `AUX`, which is 8 (30_encoding.md R86). -/
def Operand.channel : Operand → Option Nat
  | .num q => natOfRat q
  | .aux => some 8
  | .range _ => none

/-- A range operand: a natural, or `R<n>`, which is n (30_encoding.md R86). -/
def Operand.rangeIndex : Operand → Option Nat
  | .num q => natOfRat q
  | .range n => some n
  | .aux => none

/-- A `u8` operand: "cannot hold a wider value". -/
def Operand.u8 (a : Operand) : Option Byte :=
  match a.natural with
  | some n => if n < 256 then some (BitVec.ofNat 8 n) else none
  | none => none

/-- A `u16` operand. -/
def Operand.u16 (a : Operand) : Option Word :=
  match a.natural with
  | some n => if n < 65536 then some (BitVec.ofNat 16 n) else none
  | none => none

/-- A rational operand. -/
def Operand.rational : Operand → Option Rat
  | .num q => some q
  | .range _ | .aux => none

/-! ### Calls by mnemonic -/

/-- The row of `MAN` that a channel operand selects (30_encoding.md R73). -/
def manInstr : Nat → Instr
  | 0 => .man0
  | 1 => .man1
  | 2 => .man2
  | 3 => .man3
  | 4 => .man4
  | 5 => .man5
  | 6 => .man6
  | 7 => .man7
  | ch => .manAux ch

/-- An operation, or the rejection of an operand that does not fit. -/
def typed (i : Option Instr) : Except DecodeError Instr :=
  match i with
  | some i => .ok i
  | none => .error .operandType

/-- A call by mnemonic (30_encoding.md R85); the omitted range of `R2V` and `V2R` is R0
(44_scaling.md R195). -/
def decodeCall : Mnemonic → List Operand → Except DecodeError Instr
  | .openInst, [b, d, c, v, z] =>
    match b.rational, d.rational, c.rational, v.rational, z.rational with
    | some b, some d, some c, some v, some z => .ok (.openInst b d c v z)
    | _, _, _, _, _ => .error .operandType
  | .close, [] => .ok .close
  | .noop, [] => .ok .noop
  | .stdby, [] => .ok .stdby
  | .pwrdn, [] => .ok .pwrdn
  | .rst, [] => .ok .rst
  | .autorst, [] => .ok .autorst
  | .man, [c] => typed (c.channel.map manInstr)
  | .wreg, [a, v] =>
    match a.natural, v.u8 with
    | some a, some v => .ok (.wreg a v)
    | _, _ => .error .operandType
  | .rreg, [a] => typed (a.natural.map .rreg)
  | .setrange, [c, r] =>
    match c.channel, r.rangeIndex with
    | some c, some r => .ok (.setrange c r)
    | _, _ => .error .operandType
  | .setgrange, [r] => typed (r.rangeIndex.map .setgrange)
  | .setseq, [m] => typed (m.u8.map .setseq)
  | .setpd, [m] => typed (m.u8.map .setpd)
  | .setseqpd, [m] => typed (m.u8.map .setseqpd)
  | .r2v, [x] => typed (x.u16.map fun x => .r2v x 0)
  | .r2v, [x, r] =>
    match x.u16, r.rangeIndex with
    | some x, some r => .ok (.r2v x r)
    | _, _ => .error .operandType
  | .v2r, [x] => typed (x.rational.map fun x => .v2r x 0)
  | .v2r, [x, r] =>
    match x.rational, r.rangeIndex with
    | some x, some r => .ok (.v2r x r)
    | _, _ => .error .operandType
  | .getmode, [] => .ok .getmode
  | .getfeat, [] => .ok .getfeat
  | _, _ => .error .operandCount

/-! ### The opcode table's words -/

/-- The command rows of spec/opcode_table.json: opcode byte and operation (30_encoding.md R73). -/
def commandRows : List (Byte × Instr) :=
  [(0x00, .noop), (0x82, .stdby), (0x83, .pwrdn), (0x85, .rst), (0xA0, .autorst),
   (0xC0, .man0), (0xC4, .man1), (0xC8, .man2), (0xCC, .man3),
   (0xD0, .man4), (0xD4, .man5), (0xD8, .man6), (0xDC, .man7), (0xE0, .manAux 8)]

/-- The operation of an opcode byte, if the table has a row for it. -/
def commandOfOpcode (op : Byte) : List (Byte × Instr) → Option Instr
  | [] => none
  | (b, i) :: rows => if b = op then some i else commandOfOpcode op rows

/-- Byte 0 of a register frame: `u8((addr << 1) | w)` (30_encoding.md R76, R77). -/
def registerByte0 (addr w : Nat) : Byte := BitVec.ofNat 8 ((addr <<< 1) ||| w)

/-- The three bytes of a register write (30_encoding.md R75). -/
def writeFrame (addr : Nat) (v : Byte) : List Byte := [registerByte0 addr 1, v, 0x00]

/-- The three bytes of a register read (30_encoding.md R75). -/
def readFrame (addr : Nat) : List Byte := [registerByte0 addr 0, 0x00, 0x00]

/-- The operation of a table word: two bytes are a command row, three a register row. -/
def decodeWord : List Byte → Except DecodeError Instr
  | [op, filler] =>
    if filler ≠ 0x00 then .error .fillerNotZero
    else match commandOfOpcode op commandRows with
      | some i => .ok i
      | none => .error .unknownOpcode
  | [b0, v, filler] =>
    if b0.getLsbD 7 then .error .reservedFrame
    else if filler ≠ 0x00 then .error .fillerNotZero
    else if b0.getLsbD 0 then .ok (.wreg (b0 >>> 1).toNat v)
    else if v ≠ 0x00 then .error .fillerNotZero
    else .ok (.rreg (b0 >>> 1).toNat)
  | _ => .error .frameLength

/-- Transcription of any host call. -/
def decode : HostCall → Except DecodeError Instr
  | .call m args => decodeCall m args
  | .word bytes => decodeWord bytes
  | .rawOpcode _ => .error .rawOpcode
  | .overlapping _ _ => .error .overlapping

/-! ### The encoder -/

/-- The table word of an operation, where its row has one and its operands fit it
(30_encoding.md R73, R75). -/
def encodeWord : Instr → Option (List Byte)
  | .noop => some [0x00, 0x00]
  | .stdby => some [0x82, 0x00]
  | .pwrdn => some [0x83, 0x00]
  | .rst => some [0x85, 0x00]
  | .autorst => some [0xA0, 0x00]
  | .man0 => some [0xC0, 0x00]
  | .man1 => some [0xC4, 0x00]
  | .man2 => some [0xC8, 0x00]
  | .man3 => some [0xCC, 0x00]
  | .man4 => some [0xD0, 0x00]
  | .man5 => some [0xD4, 0x00]
  | .man6 => some [0xD8, 0x00]
  | .man7 => some [0xDC, 0x00]
  | .manAux ch => if ch = 8 then some [0xE0, 0x00] else none
  | .wreg addr v => if addr < 64 then some (writeFrame addr v) else none
  | .rreg addr => if addr < 64 then some (readFrame addr) else none
  | .openInst _ _ _ _ _ | .close | .getmode | .getfeat => none
  | .setrange _ _ | .setgrange _ | .setseq _ | .setpd _ | .setseqpd _ => none
  | .r2v _ _ | .v2r _ _ => none

/-- A natural number as a written operand. -/
def natOperand (n : Nat) : Operand := .num (n : Rat)

/-- The call by mnemonic of an operation (30_encoding.md R85). -/
def callOf : Instr → HostCall
  | .noop => .call .noop []
  | .stdby => .call .stdby []
  | .pwrdn => .call .pwrdn []
  | .rst => .call .rst []
  | .autorst => .call .autorst []
  | .man0 => .call .man [natOperand 0]
  | .man1 => .call .man [natOperand 1]
  | .man2 => .call .man [natOperand 2]
  | .man3 => .call .man [natOperand 3]
  | .man4 => .call .man [natOperand 4]
  | .man5 => .call .man [natOperand 5]
  | .man6 => .call .man [natOperand 6]
  | .man7 => .call .man [natOperand 7]
  | .manAux ch => .call .man [natOperand ch]
  | .wreg addr v => .call .wreg [natOperand addr, natOperand v.toNat]
  | .rreg addr => .call .rreg [natOperand addr]
  | .openInst b d c v z => .call .openInst [.num b, .num d, .num c, .num v, .num z]
  | .close => .call .close []
  | .getmode => .call .getmode []
  | .getfeat => .call .getfeat []
  | .setrange ch r => .call .setrange [natOperand ch, .range r]
  | .setgrange r => .call .setgrange [.range r]
  | .setseq m => .call .setseq [natOperand m.toNat]
  | .setpd m => .call .setpd [natOperand m.toNat]
  | .setseqpd m => .call .setseqpd [natOperand m.toNat]
  | .r2v raw r => .call .r2v [natOperand raw.toNat, .range r]
  | .v2r volts r => .call .v2r [.num volts, .range r]

/-- The encoding of an operation: its table word where it has one, else its call by mnemonic. -/
def encode (i : Instr) : HostCall :=
  match encodeWord i with
  | some bytes => .word bytes
  | none => callOf i

/-! ### The host's opcode-table interface -/

/-- The bytes of a table word of `nbits` bits, most significant byte first ("as a big-endian 16-bit
word", "big-endian 24-bit word" in the rows' notes); a width that is no whole number of bytes has none. -/
def tableWordBytes (nbits w : Nat) : List Byte :=
  if nbits % 8 = 0 then
    (List.range (nbits / 8)).map fun i => BitVec.ofNat 8 (w >>> (8 * (nbits / 8 - 1 - i)))
  else []

/-- The instruction the decoder reads from a table word. -/
def decodeTableWord (nbits w : Nat) : Option Instr :=
  match decode (.word (tableWordBytes nbits w)) with
  | .ok i => some i
  | .error _ => none

end Sys2Proof
end

