-- ==== Sys2Proof/Machine/Transport.lean ====
section
/-! DEFINITION. The transport seen from the block: the calls it requires (40_lifecycle.md R100), the
events they leave in the trace (10_state.md R29), and the answers the outside world may give (00_scope.md
R14).  Config.lean's free oracle is a function of these. -/

namespace Sys2Proof.Machine

/-- A level the block drives (00_scope.md R12). -/
inductive Level where
  | assert | deassert
  deriving DecidableEq, Repr

/-- Whether a transport call returned or failed (10_state.md R29: the marker `FAIL`). -/
inductive Mark where
  | done | fail
  deriving DecidableEq, Repr

/-- One event of the trace, in the kinds of 10_state.md R29. -/
inductive Event where
  | opened (busId deviceId : Rat) (mark : Mark)
  | configured (modeBits : Nat) (maxHz : Rat) (bits : Nat) (mark : Mark)
  | cs (level : Level) (mark : Mark)
  /-- `XFER(out, in)`; `none` is `XFER(out, FAIL)` -/
  | xfer (out : List Byte) (reply : Option (List Byte))
  | delay (ms : Nat)
  | closed (mark : Mark)
  deriving DecidableEq, Repr

/-- The calls the block requires of its transport, with their arguments (40_lifecycle.md R100): "The
block never calls any other transport function." -/
inductive TransportCall where
  | openBus (busId deviceId : Rat)
  | configure (modeBits : Nat) (maxHz : Rat) (bits : Nat)
  | setChipSelect (line : Rat) (level : Level)
  | exchange (out : List Byte)
  | closeBus
  deriving DecidableEq, Repr

/-- The outside world's answer to one transport call (00_scope.md R14, 40_lifecycle.md R103). -/
inductive Answer where
  /-- the call returns; for `exchange`, with these bytes -/
  | returns (bytes : List Byte)
  /-- the call fails -/
  | fails
  /-- the call never returns -/
  | hangs
  deriving DecidableEq, Repr, Inhabited

end Sys2Proof.Machine
end

