-- ==== Sys2Proof/Config.lean ====
section
/-! DEFINITION. The parameters of 00_scope.md R9 as one record, and the free values.  The record is
carried in `State` (field `cfg`) and written by no operation, so that a statement about every state
holds for every value of the parameters.  The values the spec gives them are in
Machine/Defaults.lean. -/

namespace Sys2Proof

/-- Access class of a program register (10_state.md R37; 90_conflicts.md C8 keeps all four). -/
inductive Access where
  | ro | wo | rw | absent
  deriving DecidableEq, Repr

/-- One row of `REGMAP`: the addresses `first` to `last` have one access class. -/
structure RegRow where
  first : Nat
  last : Nat
  access : Access
  deriving DecidableEq, Repr

/-- `SCALE_ARITH` (44_scaling.md R194): exact rationals, or the original source's binary64. -/
inductive ScaleArith where
  | exact | binary64
  deriving DecidableEq, Repr

/-- `CMD_OPCODE` (30_encoding.md R73): one opcode byte per command, nine of them for `MAN`. -/
structure Opcodes where
  noop : Byte
  stdby : Byte
  pwrdn : Byte
  rst : Byte
  autorst : Byte
  man : Vector Byte 9
  deriving DecidableEq, Repr

/-- The parameters of 00_scope.md R9 that are not construction operands of `OPEN`. -/
structure Config where
  /-- `CMD_OPCODE` -/
  opcodes : Opcodes
  /-- `REG_AUTO_SEQ_EN` -/
  regAutoSeqEn : Nat
  /-- `REG_CH_PWR_DN` -/
  regChPwrDn : Nat
  /-- `REG_FEATURE_SELECT` -/
  regFeatureSelect : Nat
  /-- `RANGE_BASE` -/
  rangeBase : Nat
  /-- `RANGE_CODE`, by enumerator R0..R8 -/
  rangeCode : Vector Byte 9
  /-- `REGMAP`: the first row that holds an address gives its class; an address in no row is absent. -/
  regmap : List RegRow
  /-- `FEATURE_INIT` -/
  featureInit : Byte
  /-- `SETTLE_DELAY_MS` -/
  settleDelayMs : Nat
  /-- `SCALE_ARITH` -/
  scaleArith : ScaleArith
  deriving DecidableEq, Repr

/-- FREE VALUE: the oracle (00_scope.md R14, 40_lifecycle.md R101, R103; 93_implementation_defined.md
I1 to I4).  Transport number `transport` (each instance has its own, 60_exceptions.md R232), which has
answered `draws` calls so, answers a call made after `trace`: it returns any bytes, fails or hangs.
The call carries its out bytes.  Read where `State.answers` lists no answer (log entry 5). -/
opaque Config.freeAnswer (transport draws : Nat) (trace : List Machine.Event)
    (call : Machine.TransportCall) : Machine.Answer

/-- FREE VALUE: the result of `R2V` in binary64 arithmetic, of the range's bounds and the raw code.
44_scaling.md R194 names the parameter and states no result ("may differ from the exact value in
the last bits"; log entry 11). -/
opaque Config.binary64RawToVolts : Rat → Rat → Nat → Rat

/-- FREE VALUE: the result of `V2R` in binary64 arithmetic, of the range's bounds and the volts
(44_scaling.md R194; log entry 11). -/
opaque Config.binary64VoltsToRaw : Rat → Rat → Rat → Rat

end Sys2Proof
end

