-- ==== Sys2Proof/Machine/Defaults.lean ====
section
/-! DEFINITION. The values 00_scope.md R9 gives the parameters.  Those the spec marks as general
knowledge (opcodes, addresses, range codes, register map: 93_implementation_defined.md G2, G5 to G7)
are here because R9 makes them the parameters' defaults (log entry 2). -/

namespace Sys2Proof

/-- `CMD_OPCODE`, default (30_encoding.md R73). -/
def defaultOpcodes : Opcodes where
  noop := 0x00
  stdby := 0x82
  pwrdn := 0x83
  rst := 0x85
  autorst := 0xA0
  man := #v[0xC0, 0xC4, 0xC8, 0xCC, 0xD0, 0xD4, 0xD8, 0xDC, 0xE0]

/-- `REGMAP`, default (10_state.md R37); an address in no row is absent. -/
def defaultRegmap : List RegRow :=
  [⟨0x01, 0x03, .rw⟩,   -- AUTO_SEQ_EN, CH_PWR_DN, FEATURE_SELECT
   ⟨0x05, 0x0C, .rw⟩,   -- RANGE_CH0..RANGE_CH7
   ⟨0x10, 0x14, .ro⟩,   -- alarm overview, tripped and active flags
   ⟨0x15, 0x3C, .rw⟩,   -- hysteresis and thresholds of channels 0..7
   ⟨0x3F, 0x3F, .ro⟩]   -- COMMAND_READBACK

/-- The default parameters (00_scope.md R9). -/
def defaultConfig : Config where
  opcodes := defaultOpcodes
  regAutoSeqEn := 0x01
  regChPwrDn := 0x02
  regFeatureSelect := 0x03
  rangeBase := 0x05
  rangeCode := #v[0x00, 0x01, 0x02, 0x03, 0x0B, 0x05, 0x06, 0x07, 0x0F]
  regmap := defaultRegmap
  featureInit := 0x00
  settleDelayMs := 15
  scaleArith := .exact

/-! The construction operands the reset state was opened with: those of `OPEN*`, the start state of
95_test_vectors.md (00_scope.md R9 gives them no value; log entry 1). -/

/-- `BUS_ID` of the reset state -/
def resetBusId : Rat := 0
/-- `DEVICE_ID` of the reset state -/
def resetDeviceId : Rat := 0
/-- `CS_LINE` of the reset state -/
def resetCsLine : Rat := 8
/-- `VREF` of the reset state: 4.096 V -/
def resetVref : Rat := 512 / 125
/-- `SPI_MAX_HZ` of the reset state -/
def resetSpiHz : Rat := 1000000

end Sys2Proof
end

