-- ==== Sys2Proof/Machine/State.lean ====
section
/-! DEFINITION. The state of the machine as plain data: the driver record of 10_state.md R20, the
host program of R22, and the outside world's answers (00_scope.md R14); the outcomes an operation can
have; and the state after reset. -/

namespace Sys2Proof.Machine

/-- `life` (10_state.md R30). -/
inductive Life where
  | closed | opened
  deriving DecidableEq, Repr

/-- `mode`: the driver's belief about the device's phase (10_state.md R24, R26), in the order that
numbers it (R24, 92_eei_decisions.md D6). -/
inductive Mode where
  | idle | reset | standby | powerDown | program | manual | auto | autoReset
  deriving DecidableEq, Repr

/-- `cs`: the last chip-select level the block drove, or UNKNOWN (10_state.md R31). -/
inductive Cs where
  | deassert | assert | unknown
  deriving DecidableEq, Repr

/-- The failing call as a `TransportError` records it: its name and, for `exchange`, its out bytes
(60_exceptions.md R210). -/
inductive FailedCall where
  | openBus | configure | cs | exchange (out : List Byte) | closeBus
  deriving DecidableEq, Repr

/-- Error kind and info (60_exceptions.md R210). -/
inductive Err where
  | transport (call : FailedCall)
  | invalidChannel (ch : Nat)
  | invalidRange (r : Nat)
  | invalidRegister (addr : Nat)
  deriving DecidableEq, Repr

/-- The value of a completed operation (30_encoding.md R85). -/
inductive Value where
  | unit
  | u8 (v : Byte)
  | u16 (w : Word)
  | rational (q : Rat)
  | mode (m : Mode)
  deriving DecidableEq, Repr

/-- An operation's result (60_exceptions.md R210). -/
inductive Result where
  | ok (v : Value)
  | err (e : Err)
  deriving DecidableEq, Repr

/-- The machine.  The first eleven fields are 10_state.md R20; `program`, `pc` and `result` are the
host's side (R22, 60_exceptions.md R210, 92_eei_decisions.md D1); `answers`, `transport` and `draws` are the oracle
of 00_scope.md R14, of which `transport` names this instance's; `cfg` is the parameters of R9. -/
structure State where
  /-- whether the instance holds its bus handle (R30) -/
  life : Life
  /-- the tracked device phase (R24 to R26) -/
  mode : Mode
  /-- the reference voltage in volts (R27) -/
  vref : Rat
  /-- the feature-select value (R28) -/
  feature : Byte
  /-- the last chip-select level driven (R31) -/
  cs : Cs
  /-- the transport events issued, oldest first (R29) -/
  trace : List Event
  /-- construction constants (R32) -/
  busId : Rat
  deviceId : Rat
  csLine : Rat
  spiHz : Rat
  /-- the parameters of 00_scope.md R9; no operation writes them -/
  cfg : Config
  /-- the host program (R22) -/
  program : List HostCall
  /-- index of the next host operation (R22) -/
  pc : Nat
  /-- the result of the last operation, as the caller received it; `none` before the first -/
  result : Option Result
  /-- the outside world's answers to the coming transport calls, next first (00_scope.md R14) -/
  answers : List Answer
  /-- MODEL'S OWN: which transport this instance is bound to, "its own" (60_exceptions.md R232); the
  first argument of `Config.freeAnswer` (log entry 5) -/
  transport : Nat
  /-- MODEL'S OWN: how many calls `Config.freeAnswer` has answered (log entry 5) -/
  draws : Nat
  deriving DecidableEq, Repr

/-- Why the machine has no step.  All are safe: nothing is provable past them. -/
inductive Fault where
  /-- Raised by a transport primitive whose call never returns (40_lifecycle.md R103,
  60_exceptions.md R233: "the model has no step past it"). Safe. -/
  | transportHang
  /-- Raised by `step` when the host program has no operation at `pc` (10_state.md R22). Safe. -/
  | programEnded
  /-- Raised by `step` when the last operation ended with `Err`: "the host program stops there"
  (10_state.md R22). Safe. -/
  | programStopped
  deriving DecidableEq, Repr

/-- Why a call has no meaning (60_exceptions.md R220).  All are safe: "a claim about a run that
contains a refusal is unprovable". -/
inductive Refusal where
  /-- Raised by an arm of `exec` whose instruction has no meaning yet; none is left. Safe. -/
  | notModelled (mnemonic : String)
  /-- Raised by every operation but `OPEN` and `CLOSE` while `life` is CLOSED (R220). Safe. -/
  | closedInstance
  /-- Raised by `OPEN` while `life` is OPEN (R220). Safe. -/
  | alreadyOpen
  /-- Raised by `OPEN` with `vref <= 0` (R220). Safe. -/
  | vrefNotPositive
  /-- Raised by `step` for a host call that is no operation: an operand that does not fit its type,
  a raw opcode byte, an overlapping call, a malformed call (R220, 30_encoding.md R82). Safe. -/
  | noOperation (e : DecodeError)
  /-- Raised by `fleetStep` for an index that names no instance (R232). Safe. -/
  | noSuchInstance
  /-- Raised by `fleetStep` for a fleet in which two open instances share one bus and one chip-select
  line, before the step or after it, "outside the model" (R232). Safe. -/
  | sharedChipSelect
  /-- Raised by `fleetStep` for a fleet in which two instances are bound to one transport: each has "its
  own transport" (R232). Safe. -/
  | sharedTransport
  deriving DecidableEq, Repr

/-- The state right after reset: a successful `OPEN` (10_state.md R20, R40; 70_reset_and_hazards.md
R240) with the construction operands of Machine/Defaults.lean, and no host program loaded. -/
def State.reset : State where
  life := .opened
  mode := .idle
  vref := resetVref
  feature := defaultConfig.featureInit
  cs := .deassert
  trace := [.opened resetBusId resetDeviceId .done, .configured 0 resetSpiHz 8 .done,
    .cs .deassert .done]
  busId := resetBusId
  deviceId := resetDeviceId
  csLine := resetCsLine
  spiHz := resetSpiHz
  cfg := defaultConfig
  program := []
  pc := 0
  result := none
  answers := []
  transport := 0
  draws := 0

/-- The instance before its first `OPEN` (10_state.md R40): `life = CLOSED`, `trace = []`, and every
other driver field undefined and unread (the values here are never read; log entry 1). -/
def State.unopened : State :=
  { State.reset with life := .closed, trace := [], cs := .unknown }

end Sys2Proof.Machine
end

