-- ==== Sys2Proof/Machine/Operands.lean ====
section
/-! DEFINITION. What the operands of an operation select: opcodes (30_encoding.md R73), registers and
their access classes (42_registers.md R150), channels, ranges and their codes (43_channel_config.md
R170), and the bounds of a range (44_scaling.md R190, R191). -/

namespace Sys2Proof.Machine

/-- `CMD_OPCODE[cmd]` (41_commands.md R120). -/
def opcodeOf (o : Opcodes) : Cmd → Byte
  | .noop => o.noop
  | .stdby => o.stdby
  | .pwrdn => o.pwrdn
  | .rst => o.rst
  | .autorst => o.autorst
  | .man ch => o.man[ch.val]

/-- Exchange 1 of a command frame (30_encoding.md R71, R72). -/
def commandFrame (cfg : Config) (cmd : Cmd) : List Byte := [opcodeOf cfg.opcodes cmd, 0x00]

/-- Exchange 2 of a command frame (30_encoding.md R71, 92_eei_decisions.md D7). -/
def echoFrame : List Byte := [0x00, 0x00]

/-- Direction of a register access. -/
inductive Dir where
  | write | read
  deriving DecidableEq, Repr

/-- `REGMAP[addr]`: the class of the first row that holds the address, else absent (10_state.md R37). -/
def accessOf (addr : Nat) : List RegRow → Access
  | [] => .absent
  | row :: rows => if row.first ≤ addr ∧ addr ≤ row.last then row.access else accessOf addr rows

/-- The access class admits the direction (42_registers.md R150). -/
def admits : Access → Dir → Bool
  | .rw, _ => true
  | .ro, .read => true
  | .ro, .write => false
  | .wo, .write => true
  | .wo, .read => false
  | .absent, _ => false

/-- `CheckReg(addr, dir)` (42_registers.md R150): the address is a register that admits the access. -/
def registerOk (cfg : Config) (addr : Nat) (dir : Dir) : Bool :=
  decide (addr ≤ 0x3F) && admits (accessOf addr cfg.regmap) dir

/-- The first address of a list of register writes that is no register or admits no write. -/
def firstRefused (cfg : Config) : List (Nat × Byte) → Option Nat
  | [] => none
  | (addr, _) :: rest =>
    match registerOk cfg addr .write with
    | true => firstRefused cfg rest
    | false => some addr

/-- The enumerator a range operand names: R0..R8, and any other natural none (43_channel_config.md R170). -/
def rangeOf : Nat → Option Range
  | 0 => some .r0
  | 1 => some .r1
  | 2 => some .r2
  | 3 => some .r3
  | 4 => some .r4
  | 5 => some .r5
  | 6 => some .r6
  | 7 => some .r7
  | 8 => some .r8
  | _ => none

/-- The enumerator's place in R0..R8. -/
def rangeIndex : Range → Fin 9
  | .r0 => 0
  | .r1 => 1
  | .r2 => 2
  | .r3 => 3
  | .r4 => 4
  | .r5 => 5
  | .r6 => 6
  | .r7 => 7
  | .r8 => 8

/-- `RANGE_CODE[r]` (43_channel_config.md R170). -/
def rangeCodeOf (cfg : Config) (r : Range) : Byte := cfg.rangeCode[(rangeIndex r).val]

/-- The factor k of a range (44_scaling.md R190). -/
def rangeFactor : Range → Rat
  | .r0 | .r5 => 5 / 2
  | .r1 | .r6 => 5 / 4
  | .r2 | .r7 => 5 / 8
  | .r3 | .r8 => 5 / 16
  | .r4 => 5 / 32

/-- Whether the range is bipolar (44_scaling.md R190). -/
def rangeBipolar : Range → Bool
  | .r0 | .r1 | .r2 | .r3 | .r4 => true
  | .r5 | .r6 | .r7 | .r8 => false

/-- The range's lower bound, of `Bounds(r, V)` (44_scaling.md R191). -/
def rangeMin (r : Range) (vref : Rat) : Rat :=
  match rangeBipolar r with
  | true => -(rangeFactor r * vref)
  | false => 0

/-- The range's upper bound, of `Bounds(r, V)` (44_scaling.md R191). -/
def rangeMax (r : Range) (vref : Rat) : Rat := rangeFactor r * vref

/-- The register and byte `SETRANGE ch, r` writes (30_encoding.md R79). -/
def rangeWrite (cfg : Config) (r : Range) (ch : Nat) : Nat × Byte :=
  (cfg.rangeBase + ch, rangeCodeOf cfg r)

/-- The writes of `SETGRANGE r`: channels 0 to 7 in ascending order (43_channel_config.md R173). -/
def globalRangeWrites (cfg : Config) (r : Range) : List (Nat × Byte) :=
  (List.range 8).map (rangeWrite cfg r)

/-- The two writes of `SETSEQPD m`: the sequence, then the complement as power-down
(43_channel_config.md R176). -/
def sequencePowerWrites (cfg : Config) (m : Byte) : List (Nat × Byte) :=
  [(cfg.regAutoSeqEn, m), (cfg.regChPwrDn, ~~~m)]

end Sys2Proof.Machine
end

