-- ==== Sys2Proof/Machine/Ops.lean ====
section
/-! DEFINITION. The shared operations: the updates of the state, the transport primitives of
00_scope.md R12 with their failure (60_exceptions.md R215, R216), how an operation ends, and the
host program.  The block has no memory of its own (20_memory.md) and no trap entry (60_exceptions.md
R219): raising an error is `Attempt.raised`, whose state is exactly that after the last completed
step. -/

namespace Sys2Proof.Machine

/-! ### Updates of the state -/

/-- Append one event to the trace (10_state.md R29). -/
def State.log (s : State) (e : Event) : State := { s with trace := s.trace ++ [e] }

/-- `st.cs <- level`. -/
def State.setCs (s : State) (l : Cs) : State := { s with cs := l }

/-- `st.mode <- m`. -/
def State.setMode (s : State) (m : Mode) : State := { s with mode := m }

/-- `st.life <- l`. -/
def State.setLife (s : State) (l : Life) : State := { s with life := l }

/-- The queue of answers after one was taken. -/
def State.setAnswers (s : State) (rest : List Answer) : State := { s with answers := rest }

/-- The counter of free answers after one more. -/
def State.countDraw (s : State) : State := { s with draws := s.draws + 1 }

/-- The operation ends with `Ok(v)`: the caller gets the value and `pc` advances by 1 (10_state.md R22). -/
def State.returnOk (s : State) (v : Value) : State :=
  { s with result := some (.ok v), pc := s.pc + 1 }

/-- The operation ends with `Err`: the caller gets the error and `pc` is not advanced (10_state.md R22). -/
def State.returnErr (s : State) (e : Err) : State := { s with result := some (.err e) }

/-- Load a host program; the next operation is its first (10_state.md R22; log entry 4). -/
def State.load (s : State) (p : List HostCall) : State :=
  { s with program := p, pc := 0, result := none }

/-! ### An operation in progress -/

/-- How a part of an operation ends: with a value, with an error raised (00_scope.md R13), or in a
transport call that never returns (60_exceptions.md R233). -/
inductive Attempt (α : Type) where
  | done (a : α) (s : State)
  | raised (e : Err) (s : State)
  | hung
  deriving Repr

/-- One part of an operation after another: an error or a hang ends the operation at once
(60_exceptions.md R215, R216). -/
def Attempt.andThen {α β : Type} (m : Attempt α) (k : α → State → Attempt β) : Attempt β :=
  match m with
  | .done a s => k a s
  | .raised e s => .raised e s
  | .hung => .hung

/-- The whole operation as a step: both `Ok` and `Err` are results with a next state
(60_exceptions.md R210, R219); a hang has none (R233). -/
def Attempt.finish {α : Type} (wrap : α → Value) (m : Attempt α) :
    Host.Outcome State Fault Refusal :=
  match m with
  | .done a s => .next (s.returnOk (wrap a))
  | .raised e s => .next (s.returnErr e)
  | .hung => .fault .transportHang

/-- The check every operation but `OPEN` and `CLOSE` begins with (10_state.md R30, 60_exceptions.md R220). -/
def whenOpen (s : State) (op : Host.Outcome State Fault Refusal) :
    Host.Outcome State Fault Refusal :=
  match s.life with
  | .closed => .refused .closedInstance
  | .opened => op

/-! ### The transport -/

/-- "`exchange` returns as many bytes as it was given. A transport that returns a different number is
treated as failing" (40_lifecycle.md R101). -/
def TransportCall.accepts : TransportCall → List Byte → Bool
  | .exchange out, bytes => bytes.length == out.length
  | .openBus _ _, _ | .configure _ _ _, _ | .setChipSelect _ _, _ | .closeBus, _ => true

/-- The event of a call that returned (10_state.md R29). -/
def TransportCall.event : TransportCall → List Byte → Event
  | .openBus b d, _ => .opened b d .done
  | .configure m z n, _ => .configured m z n .done
  | .setChipSelect _ level, _ => .cs level .done
  | .exchange out, bytes => .xfer out (some bytes)
  | .closeBus, _ => .closed .done

/-- The event of a call that failed: the marker `FAIL` in place of its result (10_state.md R29). -/
def TransportCall.failEvent : TransportCall → Event
  | .openBus b d => .opened b d .fail
  | .configure m z n => .configured m z n .fail
  | .setChipSelect _ level => .cs level .fail
  | .exchange out => .xfer out none
  | .closeBus => .closed .fail

/-- The call as a `TransportError` records it (60_exceptions.md R210). -/
def TransportCall.failed : TransportCall → FailedCall
  | .openBus _ _ => .openBus
  | .configure _ _ _ => .configure
  | .setChipSelect _ _ => .cs
  | .exchange out => .exchange out
  | .closeBus => .closeBus

/-- `cs` after a failed call: UNKNOWN (10_state.md R20, R31; 60_exceptions.md R216; log entry 7), but
a failed `close` writes no field but `life` (40_lifecycle.md R106). -/
def TransportCall.csAfterFail : TransportCall → Cs → Cs
  | .closeBus, cs => cs
  | .openBus _ _, _ | .configure _ _ _, _ | .setChipSelect _ _, _ | .exchange _, _ => .unknown

/-- The oracle's answer to a call (00_scope.md R14): the next of the queue; where the queue lists none,
whatever the instance's transport answers after this trace to this call, which nothing constrains (log
entry 5). -/
def State.draw (s : State) (c : TransportCall) : Answer × State :=
  match s.answers with
  | a :: rest => (a, s.setAnswers rest)
  | [] => (Config.freeAnswer s.transport s.draws s.trace c, s.countDraw)

/-- One transport call: the event is appended and, on failure, `TransportError` is raised at once
(00_scope.md R12, 60_exceptions.md R215). -/
def callTransport (c : TransportCall) (s : State) : Attempt (List Byte) :=
  match s.draw c with
  | (.hangs, _) => .hung
  | (.fails, t) => .raised (.transport c.failed) ((t.log c.failEvent).setCs (c.csAfterFail t.cs))
  | (.returns bytes, t) =>
    match c.accepts bytes with
    | true => .done bytes (t.log (c.event bytes))
    | false => .raised (.transport c.failed) ((t.log c.failEvent).setCs (c.csAfterFail t.cs))

/-- The state's name for a driven level. -/
def Level.toCs : Level → Cs
  | .assert => .assert
  | .deassert => .deassert

/-- `CS(level)` (00_scope.md R12) on a given line: `set_chip_select(line, level)`, then `st.cs <- level`. -/
def driveCsLine (line : Rat) (level : Level) (s : State) : Attempt Unit :=
  (callTransport (.setChipSelect line level) s).andThen fun _ t => .done () (t.setCs level.toCs)

/-- `CS(level)` on the instance's chip-select line `CS_LINE`. -/
def driveCs (level : Level) (s : State) : Attempt Unit := driveCsLine s.csLine level s

/-- `Xfer(out)` (00_scope.md R12). -/
def exchange (out : List Byte) (s : State) : Attempt (List Byte) := callTransport (.exchange out) s

/-- `Delay(ms)` (00_scope.md R12): "it never fails". -/
def delay (ms : Nat) (s : State) : State := s.log (.delay ms)

/-- A 16-bit value from its two bytes, most significant first (20_memory.md R53). -/
def msbFirst (hi lo : Byte) : Word := (hi.setWidth 16 <<< 8) ||| lo.setWidth 16

/-! ### The host program -/

/-- An `Err` ended the host program (10_state.md R22). -/
def State.stopped (s : State) : Bool :=
  match s.result with
  | some (.err _) => true
  | some (.ok _) | none => false

/-- The host call at `pc`. -/
def State.fetch (s : State) : Option HostCall := s.program[s.pc]?

end Sys2Proof.Machine
end

