-- ==== Sys2Proof/Machine/Registers.lean ====
section
/-! DEFINITION. The register primitives `WREG` and `RREG` (42_registers.md), the only operations that
reach the device's program-register space.  The registers' contents are the device's: a read's value
is an oracle answer (10_state.md R35). -/

namespace Sys2Proof.Machine

/-- The transaction of a register access (42_registers.md R152, R156): one three-byte exchange, the
third byte returned, and the mode set to Program as the last step. -/
def regTxn (frame : List Byte) (s : State) : Attempt Byte :=
  (driveCs .assert s).andThen fun _ s1 =>
  (exchange frame s1).andThen fun reply s2 =>
  (driveCs .deassert s2).andThen fun _ s3 =>
  .done (reply.getD 2 0) (s3.setMode .program)

/-- `WREG addr, v` on an open instance, `MemWrite(addr, 1, v)` (42_registers.md R151, R152). -/
def writeReg (addr : Nat) (v : Byte) (s : State) : Attempt Byte :=
  match registerOk s.cfg addr .write with
  | true => regTxn (writeFrame addr v) s
  | false => .raised (.invalidRegister addr) s

/-- `RREG addr` on an open instance, `MemRead(addr, 1)` (42_registers.md R155, R156). -/
def readReg (addr : Nat) (s : State) : Attempt Byte :=
  match registerOk s.cfg addr .read with
  | true => regTxn (readFrame addr) s
  | false => .raised (.invalidRegister addr) s

/-- `WREG` (42_registers.md R152). -/
def execWreg (addr : Nat) (v : Byte) (s : State) : Host.Outcome State Fault Refusal :=
  whenOpen s ((writeReg addr v s).finish .u8)

/-- `RREG` (42_registers.md R156). -/
def execRreg (addr : Nat) (s : State) : Host.Outcome State Fault Refusal :=
  whenOpen s ((readReg addr s).finish .u8)

end Sys2Proof.Machine
end

