-- ==== Sys2Proof/Machine/ChannelConfig.lean ====
section
/-! DEFINITION. The channel configuration helpers (43_channel_config.md), each a fixed sequence of
register writes; none reads a register and none is atomic as a whole. -/

namespace Sys2Proof.Machine

/-- Register writes one after another, each a `WREG` of its own (42_registers.md R152); a transport
failure ends the helper and the earlier writes stay (60_exceptions.md R217). -/
def writeRegs : List (Nat × Byte) → State → Attempt Unit
  | [], s => .done () s
  | (addr, v) :: rest, s => (writeReg addr v s).andThen fun _ t => writeRegs rest t

/-- A helper's writes as an operation.  The registers of all the writes are checked before the first
transport call, so that `InvalidRegister` appends no event, writes no field and comes before any
`TransportError` (60_exceptions.md R214, R218; log entry 8).  The returned bytes are discarded and the
result is `Ok(unit)`. -/
def runWrites (writes : List (Nat × Byte)) (s : State) : Host.Outcome State Fault Refusal :=
  match firstRefused s.cfg writes with
  | some addr => .next (s.returnErr (.invalidRegister addr))
  | none => (writeRegs writes s).finish fun _ => .unit

/-- `SETRANGE ch, r` (R172): the channel is checked before the range. -/
def execSetrange (ch r : Nat) (s : State) : Host.Outcome State Fault Refusal :=
  whenOpen s <|
    if 7 < ch then .next (s.returnErr (.invalidChannel ch))
    else match rangeOf r with
      | none => .next (s.returnErr (.invalidRange r))
      | some range => runWrites [rangeWrite s.cfg range ch] s

/-- `SETGRANGE r` (R173). -/
def execSetgrange (r : Nat) (s : State) : Host.Outcome State Fault Refusal :=
  whenOpen s <|
    match rangeOf r with
    | none => .next (s.returnErr (.invalidRange r))
    | some range => runWrites (globalRangeWrites s.cfg range) s

/-- `SETSEQ m` (R174). -/
def execSetseq (m : Byte) (s : State) : Host.Outcome State Fault Refusal :=
  whenOpen s (runWrites [(s.cfg.regAutoSeqEn, m)] s)

/-- `SETPD m` (R175). -/
def execSetpd (m : Byte) (s : State) : Host.Outcome State Fault Refusal :=
  whenOpen s (runWrites [(s.cfg.regChPwrDn, m)] s)

/-- `SETSEQPD m` (R176). -/
def execSetseqpd (m : Byte) (s : State) : Host.Outcome State Fault Refusal :=
  whenOpen s (runWrites (sequencePowerWrites s.cfg m) s)

end Sys2Proof.Machine
end

