-- ==== Sys2Proof/Machine/Flags.lean ====
section
/-! DEFINITION. The block has no flags (10_state.md R23): "The `mode` field is the only status-like
state".  This file holds what the mode decides and how it changes (41_commands.md section 1). -/

namespace Sys2Proof.Machine

/-- The mode's number, for printing (10_state.md R24, 92_eei_decisions.md D6). -/
def Mode.number : Mode → Nat
  | .idle => 0
  | .reset => 1
  | .standby => 2
  | .powerDown => 3
  | .program => 4
  | .manual => 5
  | .auto => 6
  | .autoReset => 7

/-- The echo set `ECHO` (41_commands.md R121; 90_conflicts.md C1). -/
def Mode.echoes : Mode → Bool
  | .reset | .manual | .auto | .autoReset => true
  | .idle | .standby | .powerDown | .program => false

/-- A command from this pre-state is followed by the settling delay (41_commands.md R126). -/
def Mode.settles : Mode → Bool
  | .powerDown => true
  | .idle | .reset | .standby | .program | .manual | .auto | .autoReset => false

/-- The next mode of a `NOOP` (41_commands.md R124). -/
def Mode.afterNoop : Mode → Mode
  | .reset | .program => .idle
  | .autoReset => .auto
  | .idle => .idle
  | .standby => .standby
  | .powerDown => .powerDown
  | .manual => .manual
  | .auto => .auto

/-- The transition function `Next(pre, cmd)` (41_commands.md R124). -/
def Mode.next (pre : Mode) : Cmd → Mode
  | .noop => pre.afterNoop
  | .stdby => .standby
  | .pwrdn => .powerDown
  | .rst => .reset
  | .autorst => .autoReset
  | .man _ => .manual

/-- The error's numeric code (60_exceptions.md R210, 92_eei_decisions.md D11). -/
def Err.code : Err → Nat
  | .transport _ => 1
  | .invalidChannel _ => 2
  | .invalidRange _ => 3
  | .invalidRegister _ => 4

/-- The result's numeric code: 0 is success (60_exceptions.md R210). -/
def Result.code : Result → Nat
  | .ok _ => 0
  | .err e => e.code

end Sys2Proof.Machine
end

