-- ==== Sys2Proof/Machine/Commands.lean ====
section
/-! DEFINITION. The mode commands `NOOP`, `STDBY`, `PWRDN`, `RST`, `AUTORST`, `MAN` (41_commands.md):
one transaction, one transition function, one echo rule and one settling-delay rule for all. -/

namespace Sys2Proof.Machine

/-- The conditional second exchange and the result (41_commands.md R125). -/
def readEcho (pre : Mode) (s : State) : Attempt Word :=
  match pre.echoes with
  | true => (exchange echoFrame s).andThen fun reply t =>
      .done (msbFirst (reply.getD 0 0) (reply.getD 1 0)) t
  | false => .done 0 s

/-- The settling delay, keyed on the pre-state (41_commands.md R126). -/
def settle (pre : Mode) (s : State) : State :=
  match pre.settles with
  | true => delay s.cfg.settleDelayMs s
  | false => s

/-- `CmdTxn(cmd)` (41_commands.md R122); the pre-state is read once, before the first transport call
(R123). -/
def cmdTxn (cmd : Cmd) (s : State) : Attempt Word :=
  (driveCs .assert s).andThen fun _ s1 =>
  (exchange (commandFrame s.cfg cmd) s1).andThen fun _ s2 =>
  (readEcho s.mode s2).andThen fun word s3 =>
  (driveCs .deassert s3).andThen fun _ s4 =>
  .done word ((settle s.mode s4).setMode (s.mode.next cmd))

/-- A command operation (41_commands.md section 2): refused on a closed instance, else the transaction. -/
def runCommand (cmd : Cmd) (s : State) : Host.Outcome State Fault Refusal :=
  whenOpen s ((cmdTxn cmd s).finish .u16)

/-- `NOOP` (R129). -/
def execNoop (s : State) : Host.Outcome State Fault Refusal := runCommand .noop s

/-- `STDBY` (R130). -/
def execStdby (s : State) : Host.Outcome State Fault Refusal := runCommand .stdby s

/-- `PWRDN` (R131). -/
def execPwrdn (s : State) : Host.Outcome State Fault Refusal := runCommand .pwrdn s

/-- `RST` (R132). -/
def execRst (s : State) : Host.Outcome State Fault Refusal := runCommand .rst s

/-- `AUTORST` (R133). -/
def execAutorst (s : State) : Host.Outcome State Fault Refusal := runCommand .autorst s

/-- `MAN ch` for any natural ch (R134): `InvalidChannel` before any transport call when ch > 8. -/
def manualSelect (ch : Nat) (s : State) : Host.Outcome State Fault Refusal :=
  if h : ch < 9 then runCommand (.man ⟨ch, h⟩) s
  else whenOpen s (.next (s.returnErr (.invalidChannel ch)))

/-- `MAN 0` (R134). -/
def execMan0 (s : State) : Host.Outcome State Fault Refusal := manualSelect 0 s

/-- `MAN 1` (R134). -/
def execMan1 (s : State) : Host.Outcome State Fault Refusal := manualSelect 1 s

/-- `MAN 2` (R134). -/
def execMan2 (s : State) : Host.Outcome State Fault Refusal := manualSelect 2 s

/-- `MAN 3` (R134). -/
def execMan3 (s : State) : Host.Outcome State Fault Refusal := manualSelect 3 s

/-- `MAN 4` (R134). -/
def execMan4 (s : State) : Host.Outcome State Fault Refusal := manualSelect 4 s

/-- `MAN 5` (R134). -/
def execMan5 (s : State) : Host.Outcome State Fault Refusal := manualSelect 5 s

/-- `MAN 6` (R134). -/
def execMan6 (s : State) : Host.Outcome State Fault Refusal := manualSelect 6 s

/-- `MAN 7` (R134). -/
def execMan7 (s : State) : Host.Outcome State Fault Refusal := manualSelect 7 s

/-- `MAN AUX` (ch = 8) and the channels above it, which fail with `InvalidChannel` (R134). -/
def execManAux (ch : Nat) (s : State) : Host.Outcome State Fault Refusal := manualSelect ch s

end Sys2Proof.Machine
end

