-- ==== Sys2Proof/Machine/Lifecycle.lean ====
section
/-! DEFINITION. The lifecycle operations `OPEN` and `CLOSE` and the accessors `GETMODE` and `GETFEAT`
(40_lifecycle.md). -/

namespace Sys2Proof.Machine

/-- The fields `OPEN` writes once its transport calls have returned (40_lifecycle.md R104, 10_state.md
R40). -/
def State.construct (s : State) (busId deviceId csLine vref spiHz : Rat) : State :=
  { s with
    busId := busId, deviceId := deviceId, csLine := csLine, spiHz := spiHz, vref := vref,
    feature := s.cfg.featureInit, mode := .idle, cs := .deassert, life := .opened }

/-- The transport calls of `OPEN`, in order, and the construction (40_lifecycle.md R104): transfer
mode 0, 8 bits per word (10_state.md R32). -/
def openTxn (busId deviceId csLine vref spiHz : Rat) (s : State) : Attempt Unit :=
  (callTransport (.openBus busId deviceId) s).andThen fun _ s1 =>
  (callTransport (.configure 0 spiHz 8) s1).andThen fun _ s2 =>
  (driveCsLine csLine .deassert s2).andThen fun _ s3 =>
  .done () (s3.construct busId deviceId csLine vref spiHz)

/-- `OPEN` (40_lifecycle.md R104): refused on an open instance and with `vref <= 0`. -/
def execOpen (busId deviceId csLine vref spiHz : Rat) (s : State) :
    Host.Outcome State Fault Refusal :=
  match s.life with
  | .opened => .refused .alreadyOpen
  | .closed =>
    if 0 < vref then (openTxn busId deviceId csLine vref spiHz s).finish fun _ => .unit
    else .refused .vrefNotPositive

/-- `life <- CLOSED` whether `close` returned or failed (40_lifecycle.md R106, 92_eei_decisions.md D30). -/
def closeTxn (s : State) : Attempt Unit :=
  match callTransport .closeBus s with
  | .done _ t => .done () (t.setLife .closed)
  | .raised e t => .raised e (t.setLife .closed)
  | .hung => .hung

/-- `CLOSE` (40_lifecycle.md R106): idempotent, with no transport call on a closed instance. -/
def execClose (s : State) : Host.Outcome State Fault Refusal :=
  match s.life with
  | .closed => .next (s.returnOk .unit)
  | .opened => (closeTxn s).finish fun _ => .unit

/-- `GETMODE` (40_lifecycle.md R108). -/
def execGetmode (s : State) : Host.Outcome State Fault Refusal :=
  whenOpen s (.next (s.returnOk (.mode s.mode)))

/-- `GETFEAT` (40_lifecycle.md R109). -/
def execGetfeat (s : State) : Host.Outcome State Fault Refusal :=
  whenOpen s (.next (s.returnOk (.u8 s.feature)))

end Sys2Proof.Machine
end

