-- ==== Sys2Proof/Machine/Scaling.lean ====
section
/-! DEFINITION. The scaling functions and their operations `R2V` and `V2R` (44_scaling.md): "Both are
pure functions of range and reference voltage; no device I/O." -/

namespace Sys2Proof.Machine

/-- `FULL_SCALE` (00_scope.md R9). -/
def fullScale : Rat := 65535

/-- `raw_to_volts(raw, range) = raw * (max-min) / 65535 + min` in exact rationals (R192, R194); its
argument is a rational because the round trip passes one through it (95_test_vectors.md E7). -/
def rawToVolts (vref : Rat) (r : Range) (raw : Rat) : Rat :=
  raw * (rangeMax r vref - rangeMin r vref) / fullScale + rangeMin r vref

/-- `volts_to_raw(volts, range) = (volts - min) * 65535 / (max - min)` in exact rationals, neither
rounded nor clamped (R193, R194). -/
def voltsToRaw (vref : Rat) (r : Range) (volts : Rat) : Rat :=
  (volts - rangeMin r vref) * fullScale / (rangeMax r vref - rangeMin r vref)

/-- The result of `R2V` in the configured arithmetic (R194). -/
def scaleRaw (a : ScaleArith) (vref : Rat) (r : Range) (raw : Word) : Rat :=
  match a with
  | .exact => rawToVolts vref r (raw.toNat : Rat)
  | .binary64 => Config.binary64RawToVolts (rangeMin r vref) (rangeMax r vref) raw.toNat

/-- The result of `V2R` in the configured arithmetic (R194). -/
def scaleVolts (a : ScaleArith) (vref : Rat) (r : Range) (volts : Rat) : Rat :=
  match a with
  | .exact => voltsToRaw vref r volts
  | .binary64 => Config.binary64VoltsToRaw (rangeMin r vref) (rangeMax r vref) volts

/-- `R2V raw, r` (R192). -/
def execR2v (raw : Word) (r : Nat) (s : State) : Host.Outcome State Fault Refusal :=
  whenOpen s <|
    match rangeOf r with
    | none => .next (s.returnErr (.invalidRange r))
    | some range => .next (s.returnOk (.rational (scaleRaw s.cfg.scaleArith s.vref range raw)))

/-- `V2R volts, r` (R193). -/
def execV2r (volts : Rat) (r : Nat) (s : State) : Host.Outcome State Fault Refusal :=
  whenOpen s <|
    match rangeOf r with
    | none => .next (s.returnErr (.invalidRange r))
    | some range =>
      .next (s.returnOk (.rational (scaleVolts s.cfg.scaleArith s.vref range volts)))

end Sys2Proof.Machine
end

