-- ==== Sys2Proof/Machine/Dispatch.lean ====
section
/-! DEFINITION. The dispatch: one arm per constructor of `Instr`, each one call of its meaning. -/

namespace Sys2Proof.Machine

def exec (i : Instr) (s : State) : Host.Outcome State Fault Refusal :=
  match i with
  | .noop => Sys2Proof.Machine.execNoop s
  | .stdby => Sys2Proof.Machine.execStdby s
  | .pwrdn => Sys2Proof.Machine.execPwrdn s
  | .rst => Sys2Proof.Machine.execRst s
  | .autorst => Sys2Proof.Machine.execAutorst s
  | .man0 => Sys2Proof.Machine.execMan0 s
  | .man1 => Sys2Proof.Machine.execMan1 s
  | .man2 => Sys2Proof.Machine.execMan2 s
  | .man3 => Sys2Proof.Machine.execMan3 s
  | .man4 => Sys2Proof.Machine.execMan4 s
  | .man5 => Sys2Proof.Machine.execMan5 s
  | .man6 => Sys2Proof.Machine.execMan6 s
  | .man7 => Sys2Proof.Machine.execMan7 s
  | .manAux ch => Sys2Proof.Machine.execManAux ch s
  | .wreg addr v => Sys2Proof.Machine.execWreg addr v s
  | .rreg addr => Sys2Proof.Machine.execRreg addr s
  | .openInst busId deviceId csLine vref spiHz => Sys2Proof.Machine.execOpen busId deviceId csLine vref spiHz s
  | .close => Sys2Proof.Machine.execClose s
  | .getmode => Sys2Proof.Machine.execGetmode s
  | .getfeat => Sys2Proof.Machine.execGetfeat s
  | .setrange ch r => Sys2Proof.Machine.execSetrange ch r s
  | .setgrange r => Sys2Proof.Machine.execSetgrange r s
  | .setseq m => Sys2Proof.Machine.execSetseq m s
  | .setpd m => Sys2Proof.Machine.execSetpd m s
  | .setseqpd m => Sys2Proof.Machine.execSetseqpd m s
  | .r2v raw r => Sys2Proof.Machine.execR2v raw r s
  | .v2r volts r => Sys2Proof.Machine.execV2r volts r s

end Sys2Proof.Machine
end

