-- ==== Sys2Proof/Machine/Step.lean ====
section
/-! DEFINITION. One step: the host issues the call at `pc`, it is transcribed and performed
(10_state.md R22, 00_scope.md R17). -/

namespace Sys2Proof.Machine

/-- The next host operation.  A program that an `Err` stopped, or that is at its end, has none
(10_state.md R22); a call that is no operation is refused (60_exceptions.md R220). -/
def step (s : State) : Host.Outcome State Fault Refusal :=
  match s.stopped with
  | true => .fault .programStopped
  | false =>
    match s.fetch with
    | none => .fault .programEnded
    | some call =>
      match decode call with
      | .error e => .refused (.noOperation e)
      | .ok i => exec i s

/-- The state with a one-call host program, the table word's, loaded: the next step issues it. -/
def State.withFetchWord (s : State) (nbits w : Nat) : State :=
  s.load [.word (tableWordBytes nbits w)]

end Sys2Proof.Machine
end

