-- ==== Sys2Proof/Machine/Fleet.lean ====
section
/-! DEFINITION. Several driver instances (60_exceptions.md R232, 00_scope.md R17): each has its own
state record and its own transport, and no state is shared. -/

namespace Sys2Proof.Machine

/-- The instances, by index. -/
abbrev Fleet := List State

/-- Two open instances bound to one bus and one chip-select line. -/
def sharesChipSelect (s t : State) : Bool :=
  decide (s.life = .opened ∧ t.life = .opened ∧ s.busId = t.busId ∧ s.csLine = t.csLine)

/-- Every instance of the fleet has a transport of its own. -/
def ownTransports (f : Fleet) : Bool := decide (f.map State.transport).Nodup

/-- No two open instances of the fleet are bound to one bus and one chip-select line. -/
def ownChipSelects (f : Fleet) : Bool :=
  decide (f.Pairwise fun s t => sharesChipSelect s t = false)

/-- The fleet, if it is within the model: "Two instances bound to one bus and one chip-select line are
outside the model", and each has "its own transport" (R232). -/
def admitted (f : Fleet) : Host.Outcome Fleet Fault Refusal :=
  match ownTransports f, ownChipSelects f with
  | false, _ => .refused .sharedTransport
  | true, false => .refused .sharedChipSelect
  | true, true => .next f

/-- One step of instance `k`.  The fleet is within the model before the step, whichever instance makes
it, and after it. -/
def fleetStep (k : Nat) (f : Fleet) : Host.Outcome Fleet Fault Refusal :=
  match f[k]?, admitted f with
  | none, _ => .refused .noSuchInstance
  | some _, .refused r => .refused r
  | some _, .fault r => .fault r
  | some s, .next _ =>
    match step s with
    | .fault r => .fault r
    | .refused r => .refused r
    | .next t => admitted (f.set k t)

end Sys2Proof.Machine
end

