-- ==== Sys2Proof/Machine/HostText.lean ====
section
/-! DEFINITION. The textual syntax of host programs (30_encoding.md R86): one operation a line,
`MNEMONIC` then operands separated by commas; numbers decimal, `0x` or `0b` (00_scope.md R10); ranges
`R<n>`; the auxiliary channel `AUX`; rationals as decimals; `;` starts a comment.  A text becomes host
calls; their operands' types are checked by `decode`. -/

namespace Sys2Proof

/-- Why a line is no host call. -/
inductive TextError where
  | unknownMnemonic
  | badOperand
  deriving DecidableEq, Repr

/-- Cut at every `sep`. -/
def splitAtChar (sep : Char) : List Char → List (List Char)
  | [] => [[]]
  | c :: cs =>
    if c = sep then [] :: splitAtChar sep cs
    else match splitAtChar sep cs with
      | [] => [[c]]
      | w :: ws => (c :: w) :: ws

/-- Drop leading spaces and tabs. -/
def trimFront : List Char → List Char
  | [] => []
  | c :: cs => if c = ' ' ∨ c = '\t' then trimFront cs else c :: cs

/-- Drop spaces and tabs at both ends. -/
def trimText (cs : List Char) : List Char := (trimFront (trimFront cs).reverse).reverse

/-- The value of a digit in a base up to 16. -/
def digitValue (base : Nat) (c : Char) : Option Nat :=
  let n := c.toNat
  let v := if 48 ≤ n ∧ n ≤ 57 then n - 48
    else if 65 ≤ n ∧ n ≤ 70 then n - 55
    else if 97 ≤ n ∧ n ≤ 102 then n - 87
    else base
  if v < base then some v else none

/-- Digits read onto a value. -/
def readDigits (base acc : Nat) : List Char → Option Nat
  | [] => some acc
  | c :: cs =>
    match digitValue base c with
    | some d => readDigits base (acc * base + d) cs
    | none => none

/-- A natural number of one digit or more. -/
def readNatural (base : Nat) : List Char → Option Nat
  | [] => none
  | cs => readDigits base 0 cs

/-- An unsigned number: `0x` hexadecimal, `0b` binary, else decimal with an optional fraction. -/
def readUnsigned : List Char → Option Rat
  | '0' :: 'x' :: cs => (readNatural 16 cs).map fun n => (n : Rat)
  | '0' :: 'b' :: cs => (readNatural 2 cs).map fun n => (n : Rat)
  | cs =>
    match splitAtChar '.' cs with
    | [whole] => (readNatural 10 whole).map fun n => (n : Rat)
    | [whole, part] =>
      match readNatural 10 whole, readNatural 10 part with
      | some w, some p => some ((w : Rat) + (p : Rat) / ((10 ^ part.length : Nat) : Rat))
      | _, _ => none
    | _ => none

/-- A number with an optional sign. -/
def readNumber : List Char → Option Rat
  | '-' :: cs => (readUnsigned cs).map fun q => -q
  | cs => readUnsigned cs

/-- One operand. -/
def readOperand (cs : List Char) : Option Operand :=
  if cs = ['A', 'U', 'X'] then some .aux
  else match cs with
    | 'R' :: digits => (readNatural 10 digits).map .range
    | _ => (readNumber cs).map .num

/-- The operands of a line: none, or one or more separated by commas. -/
def readOperands (cs : List Char) : Option (List Operand) :=
  if trimText cs = [] then some []
  else (splitAtChar ',' cs).mapM fun w => readOperand (trimText w)

/-- The nineteen mnemonics as they are spelled (00_scope.md R6). -/
def mnemonicNames : List (List Char × Mnemonic) :=
  [("OPEN".toList, .openInst), ("CLOSE".toList, .close), ("NOOP".toList, .noop),
   ("STDBY".toList, .stdby), ("PWRDN".toList, .pwrdn), ("RST".toList, .rst),
   ("AUTORST".toList, .autorst), ("MAN".toList, .man), ("WREG".toList, .wreg),
   ("RREG".toList, .rreg), ("SETRANGE".toList, .setrange), ("SETGRANGE".toList, .setgrange),
   ("SETSEQ".toList, .setseq), ("SETPD".toList, .setpd), ("SETSEQPD".toList, .setseqpd),
   ("R2V".toList, .r2v), ("V2R".toList, .v2r), ("GETMODE".toList, .getmode),
   ("GETFEAT".toList, .getfeat)]

/-- The mnemonic of a spelling. -/
def mnemonicOf (w : List Char) : List (List Char × Mnemonic) → Option Mnemonic
  | [] => none
  | (name, m) :: rest => if name = w then some m else mnemonicOf w rest

/-- The text before a line's comment. -/
def dropComment (cs : List Char) : List Char := cs.takeWhile fun c => c != ';'

/-- One line: nothing, a host call, or no call. -/
def readLine (line : List Char) : Except TextError (Option HostCall) :=
  match trimText (dropComment line) with
  | [] => .ok none
  | cs =>
    match mnemonicOf (cs.takeWhile fun c => c != ' ') mnemonicNames,
        readOperands (cs.dropWhile fun c => c != ' ') with
    | none, _ => .error .unknownMnemonic
    | some _, none => .error .badOperand
    | some m, some args => .ok (some (.call m args))

/-- The calls of a list of lines, in order. -/
def readLines : List (List Char) → Except TextError (List HostCall)
  | [] => .ok []
  | line :: rest =>
    match readLine line, readLines rest with
    | .error e, _ => .error e
    | .ok _, .error e => .error e
    | .ok none, .ok calls => .ok calls
    | .ok (some c), .ok calls => .ok (c :: calls)

/-- A host program's text as host calls. -/
def assemble (text : List Char) : Except TextError (List HostCall) :=
  readLines (splitAtChar '\n' text)

end Sys2Proof
end

