-- ==== Sys2Proof/Safety.lean ====
section
/-! DEFINITION. The terms of the claims: which operation sends what, the events of a transaction, the
grammar every trace keeps (bus exclusivity, 70_reset_and_hazards.md R250; 42_registers.md R157), and
the invariant of a safe state. -/

namespace Sys2Proof.Machine

/-! ### Which operations are which -/

/-- The command an operation issues (41_commands.md R120), if it is a command operation with a legal
channel. -/
def commandOf : Instr → Option Cmd
  | .noop => some .noop
  | .stdby => some .stdby
  | .pwrdn => some .pwrdn
  | .rst => some .rst
  | .autorst => some .autorst
  | .man0 => some (.man 0)
  | .man1 => some (.man 1)
  | .man2 => some (.man 2)
  | .man3 => some (.man 3)
  | .man4 => some (.man 4)
  | .man5 => some (.man 5)
  | .man6 => some (.man 6)
  | .man7 => some (.man 7)
  | .manAux ch => if h : ch < 9 then some (.man ⟨ch, h⟩) else none
  | .wreg _ _ | .rreg _ | .openInst _ _ _ _ _ | .close | .getmode | .getfeat => none
  | .setrange _ _ | .setgrange _ | .setseq _ | .setpd _ | .setseqpd _ => none
  | .r2v _ _ | .v2r _ _ => none

/-- The register writes a helper expands into (30_encoding.md R87), if its operands are legal. -/
def helperWrites (cfg : Config) : Instr → Option (List (Nat × Byte))
  | .setrange ch r => if 7 < ch then none else (rangeOf r).map fun range => [rangeWrite cfg range ch]
  | .setgrange r => (rangeOf r).map (globalRangeWrites cfg)
  | .setseq m => some [(cfg.regAutoSeqEn, m)]
  | .setpd m => some [(cfg.regChPwrDn, m)]
  | .setseqpd m => some (sequencePowerWrites cfg m)
  | .noop | .stdby | .pwrdn | .rst | .autorst => none
  | .man0 | .man1 | .man2 | .man3 | .man4 | .man5 | .man6 | .man7 | .manAux _ => none
  | .wreg _ _ | .rreg _ | .openInst _ _ _ _ _ | .close | .getmode | .getfeat => none
  | .r2v _ _ | .v2r _ _ => none

/-- The operations that send register frames: `WREG`, `RREG` and the helpers (30_encoding.md R70). -/
def isRegisterOp : Instr → Bool
  | .wreg _ _ | .rreg _ => true
  | .setrange _ _ | .setgrange _ | .setseq _ | .setpd _ | .setseqpd _ => true
  | .noop | .stdby | .pwrdn | .rst | .autorst => false
  | .man0 | .man1 | .man2 | .man3 | .man4 | .man5 | .man6 | .man7 | .manAux _ => false
  | .openInst _ _ _ _ _ | .close | .getmode | .getfeat | .r2v _ _ | .v2r _ _ => false

/-- The host-only operations that touch no transport: the accessors and the scaling. -/
def isHostOnly : Instr → Bool
  | .getmode | .getfeat | .r2v _ _ | .v2r _ _ => true
  | .noop | .stdby | .pwrdn | .rst | .autorst => false
  | .man0 | .man1 | .man2 | .man3 | .man4 | .man5 | .man6 | .man7 | .manAux _ => false
  | .wreg _ _ | .rreg _ => false
  | .setrange _ _ | .setgrange _ | .setseq _ | .setpd _ | .setseqpd _ => false
  | .openInst _ _ _ _ _ | .close => false

/-- `OPEN`, with any operands. -/
def isOpenOp : Instr → Bool
  | .openInst _ _ _ _ _ => true
  | .noop | .stdby | .pwrdn | .rst | .autorst => false
  | .man0 | .man1 | .man2 | .man3 | .man4 | .man5 | .man6 | .man7 | .manAux _ => false
  | .wreg _ _ | .rreg _ | .close | .getmode | .getfeat => false
  | .setrange _ _ | .setgrange _ | .setseq _ | .setpd _ | .setseqpd _ => false
  | .r2v _ _ | .v2r _ _ => false

/-- Every register write of the list goes to a register that admits it (42_registers.md R151). -/
def allWritable (cfg : Config) (writes : List (Nat × Byte)) : Bool :=
  writes.all fun w => registerOk cfg w.1 .write

/-- The operands of an operation are all legal: no operand error of 60_exceptions.md R210 applies. -/
def operandsLegal (cfg : Config) : Instr → Bool
  | .noop | .stdby | .pwrdn | .rst | .autorst => true
  | .man0 | .man1 | .man2 | .man3 | .man4 | .man5 | .man6 | .man7 => true
  | .manAux ch => decide (ch < 9)
  | .wreg addr _ => registerOk cfg addr .write
  | .rreg addr => registerOk cfg addr .read
  | .openInst _ _ _ vref _ => decide (0 < vref)
  | .close | .getmode | .getfeat => true
  | .setrange ch r => decide (ch ≤ 7) && (rangeOf r).isSome && registerOk cfg (cfg.rangeBase + ch) .write
  | .setgrange r => (rangeOf r).isSome &&
      (List.range 8).all fun ch => registerOk cfg (cfg.rangeBase + ch) .write
  | .setseq _ => registerOk cfg cfg.regAutoSeqEn .write
  | .setpd _ => registerOk cfg cfg.regChPwrDn .write
  | .setseqpd _ => registerOk cfg cfg.regAutoSeqEn .write && registerOk cfg cfg.regChPwrDn .write
  | .r2v _ r | .v2r _ r => (rangeOf r).isSome

/-- The life an operation runs in: `OPEN` on a closed instance, every other on an open one. -/
def lifeFor (i : Instr) : Life :=
  match isOpenOp i with
  | true => .closed
  | false => .opened

/-! ### What the outside world must answer -/

/-- How many bytes the answer to each transport call of a completed operation carries, in call order; 0
for a call that carries none (40_lifecycle.md R100, R104, R106; 41_commands.md R122; 42_registers.md
R152, R156). -/
def replyLengths (cfg : Config) (pre : Mode) (i : Instr) : List Nat :=
  match commandOf i, helperWrites cfg i with
  | some _, _ => [0, 2] ++ (if pre.echoes then [2] else []) ++ [0]
  | none, some writes => writes.flatMap fun _ => [0, 3, 0]
  | none, none =>
    match i with
    | .wreg _ _ | .rreg _ => [0, 3, 0]
    | .openInst _ _ _ _ _ => [0, 0, 0]
    | .close => [0]
    | .noop | .stdby | .pwrdn | .rst | .autorst => []
    | .man0 | .man1 | .man2 | .man3 | .man4 | .man5 | .man6 | .man7 | .manAux _ => []
    | .getmode | .getfeat | .r2v _ _ | .v2r _ _ => []
    | .setrange _ _ | .setgrange _ | .setseq _ | .setpd _ | .setseqpd _ => []

/-- The next answers let every one of these calls return, an exchange with as many bytes as it sent. -/
def serves : List Nat → List Answer → Bool
  | [], _ => true
  | n :: ns, .returns bytes :: rest => (n == 0 || bytes.length == n) && serves ns rest
  | _ :: _, .fails :: _ | _ :: _, .hangs :: _ | _ :: _, [] => false

/-- Some call may hang: a listed answer does, or a free answer of the instance's transport. -/
def MayHang (s : State) : Prop :=
  .hangs ∈ s.answers ∨
    ∃ draws trace call, Config.freeAnswer s.transport draws trace call = .hangs

/-- The registers the helpers write exist and admit a write, as they do in the default `REGMAP`. -/
def helpersWritable (cfg : Config) : Bool :=
  registerOk cfg cfg.regAutoSeqEn .write && registerOk cfg cfg.regChPwrDn .write &&
    (List.range 8).all fun ch => registerOk cfg (cfg.rangeBase + ch) .write

/-! ### The events of a transaction -/

/-- What a completed command transaction appends (41_commands.md R122): `in1` answers exchange 1 and
`in2` exchange 2, which happens only from the echo set. -/
def commandEvents (cfg : Config) (pre : Mode) (cmd : Cmd) (in1 in2 : List Byte) : List Event :=
  [.cs .assert .done, .xfer (commandFrame cfg cmd) (some in1)] ++
    (if pre.echoes then [.xfer [0x00, 0x00] (some in2)] else []) ++
    [.cs .deassert .done] ++
    (if pre = .powerDown then [.delay cfg.settleDelayMs] else [])

/-- What a completed register transaction appends (42_registers.md R152, R156). -/
def registerEvents (frame reply : List Byte) : List Event :=
  [.cs .assert .done, .xfer frame (some reply), .cs .deassert .done]

/-- The three answers of a transport on which a register transaction completes: to `CS(ASSERT)`, to
the exchange, to `CS(DEASSERT)`. -/
structure Served where
  onAssert : List Byte
  onExchange : List Byte
  onDeassert : List Byte
  deriving DecidableEq, Repr

/-- The served transaction as the outside world's answers. -/
def Served.answers (r : Served) : List Answer :=
  [.returns r.onAssert, .returns r.onExchange, .returns r.onDeassert]

/-- The answers that serve a list of register transactions, in order. -/
def servedAnswers (rs : List Served) : List Answer := rs.flatMap Served.answers

/-- The events of the register writes of a list, each served. -/
def writeEvents : List (Nat × Byte) → List Served → List Event
  | w :: ws, r :: rs => registerEvents (writeFrame w.1 w.2) r.onExchange ++ writeEvents ws rs
  | _, _ => []

/-- The bytes the block put on the wire, exchange by exchange. -/
def outBytes : List Event → List (List Byte)
  | [] => []
  | .xfer out _ :: es => out :: outBytes es
  | .opened _ _ _ :: es | .configured _ _ _ _ :: es | .cs _ _ :: es | .delay _ :: es
  | .closed _ :: es => outBytes es

/-- The replies of the exchanges, in order; `none` for a failed one. -/
def inBytes : List Event → List (Option (List Byte))
  | [] => []
  | .xfer _ reply :: es => reply :: inBytes es
  | .opened _ _ _ :: es | .configured _ _ _ _ :: es | .cs _ _ :: es | .delay _ :: es
  | .closed _ :: es => inBytes es

/-- The number of settling delays in a list of events. -/
def delayCount : List Event → Nat
  | [] => 0
  | .delay _ :: es => delayCount es + 1
  | .opened _ _ _ :: es | .configured _ _ _ _ :: es | .cs _ _ :: es | .xfer _ _ :: es
  | .closed _ :: es => delayCount es

/-- The event carries the marker `FAIL` (10_state.md R29). -/
def Event.isFail : Event → Bool
  | .opened _ _ m | .configured _ _ _ m | .cs _ m | .closed m => decide (m = .fail)
  | .xfer _ reply => reply.isNone
  | .delay _ => false

/-- The failed call an event records. -/
def Event.failedCall : Event → Option FailedCall
  | .opened _ _ .fail => some .openBus
  | .configured _ _ _ .fail => some .configure
  | .cs _ .fail => some .cs
  | .xfer out none => some (.exchange out)
  | .closed .fail => some .closeBus
  | .opened _ _ .done | .configured _ _ _ .done | .cs _ .done | .xfer _ (some _) | .closed .done
  | .delay _ => none

/-! ### Expansions -/

/-- A helper's expansion into primitive operations (30_encoding.md R87), if its operands are legal. -/
def expansion (cfg : Config) : Instr → Option (List Instr)
  | .setrange ch r => if 7 < ch then none else
      (rangeOf r).map fun range => [.wreg (cfg.rangeBase + ch) (rangeCodeOf cfg range)]
  | .setgrange r => (rangeOf r).map fun _ => (List.range 8).map fun ch => .setrange ch r
  | .setseq m => some [.wreg cfg.regAutoSeqEn m]
  | .setpd m => some [.wreg cfg.regChPwrDn m]
  | .setseqpd m => some [.setseq m, .setpd (~~~m)]
  | .noop | .stdby | .pwrdn | .rst | .autorst => none
  | .man0 | .man1 | .man2 | .man3 | .man4 | .man5 | .man6 | .man7 | .manAux _ => none
  | .wreg _ _ | .rreg _ | .openInst _ _ _ _ _ | .close | .getmode | .getfeat => none
  | .r2v _ _ | .v2r _ _ => none

/-- Perform operations one after another until one ends in an error, or has no next state. -/
def execUntilErr : List Instr → State → Host.Outcome State Fault Refusal
  | [], s => .next s
  | i :: is, s =>
    match exec i s with
    | .next t => if t.stopped then .next t else execUntilErr is t
    | .fault r => .fault r
    | .refused r => .refused r

/-- The result a helper returns where its expansion ended in `t`: the expansion's error, or `Ok(unit)`. -/
def helperReturn (s t : State) : State :=
  if t.stopped then { t with pc := s.pc } else { t with pc := s.pc + 1, result := some (.ok .unit) }

/-! ### The grammar of a trace -/

/-- Where a trace stands: the instance is closed, `OPEN` has claimed or configured the bus, the
instance is ready, or a transaction is inside its chip-select window. -/
inductive Phase where
  | closed | claimed | configured | ready | started | commandSent | echoRead | registerDone
  deriving DecidableEq, Repr

/-- Every command (41_commands.md R120). -/
def allCommands : List Cmd :=
  [.noop, .stdby, .pwrdn, .rst, .autorst, .man 0, .man 1, .man 2, .man 3, .man 4, .man 5, .man 6,
   .man 7, .man 8]

/-- The out bytes are some command's exchange 1 (30_encoding.md R71, R82). -/
def isCommandFrame (cfg : Config) (out : List Byte) : Bool :=
  allCommands.any fun cmd => commandFrame cfg cmd == out

/-- The out bytes are a register write or read of a register that admits it: bit 7 of byte 0 clear,
zero filler (30_encoding.md R75, R76, R83; 42_registers.md R150). -/
def isRegisterFrame (cfg : Config) : List Byte → Bool
  | [b0, v, filler] =>
    !b0.getLsbD 7 && filler == 0x00 &&
      match b0.getLsbD 0 with
      | true => registerOk cfg (b0 >>> 1).toNat .write
      | false => v == 0x00 && registerOk cfg (b0 >>> 1).toNat .read
  | _ => false

/-- One event of a legal trace: an exchange happens only inside a chip-select window, a window holds
one command (two exchanges at most) or one register access (one exchange), nothing happens on a
closed instance but `OPEN`'s own calls, and a failed call ends the window. -/
def nextPhase (cfg : Config) : Phase → Event → Option Phase
  | .closed, .opened _ _ .done => some .claimed
  | .closed, .opened _ _ .fail => some .closed
  | .claimed, .configured 0 _ 8 .done => some .configured
  | .claimed, .configured 0 _ 8 .fail => some .closed
  | .configured, .cs .deassert .done => some .ready
  | .configured, .cs .deassert .fail => some .closed
  | .ready, .cs .assert .done => some .started
  | .ready, .cs .assert .fail => some .ready
  | .ready, .delay ms => if ms = cfg.settleDelayMs then some .ready else none
  | .ready, .closed _ => some .closed
  | .started, .xfer out none =>
    if isCommandFrame cfg out || isRegisterFrame cfg out then some .ready else none
  | .started, .xfer out (some reply) =>
    if reply.length ≠ out.length then none
    else if isCommandFrame cfg out then some .commandSent
    else if isRegisterFrame cfg out then some .registerDone else none
  | .commandSent, .xfer out none => if out = [0x00, 0x00] then some .ready else none
  | .commandSent, .xfer out (some reply) =>
    if out = [0x00, 0x00] ∧ reply.length = 2 then some .echoRead else none
  | .commandSent, .cs .deassert _ => some .ready
  | .echoRead, .cs .deassert _ => some .ready
  | .registerDone, .cs .deassert _ => some .ready
  | _, _ => none

/-- Where a list of events leads from a phase, if it is legal. -/
def tracePhase (cfg : Config) (p : Phase) : List Event → Option Phase
  | [] => some p
  | e :: es =>
    match nextPhase cfg p e with
    | some q => tracePhase cfg q es
    | none => none

/-- The phase of an instance between operations. -/
def restPhase : Life → Phase
  | .closed => .closed
  | .opened => .ready

/-- The chip-select level after one event (10_state.md R31): the level driven, UNKNOWN after a failed
call other than `close`. -/
def levelAfter (l : Cs) : Event → Cs
  | .cs level .done => level.toCs
  | .cs _ .fail => .unknown
  | .opened _ _ .fail => .unknown
  | .configured _ _ _ .fail => .unknown
  | .xfer _ none => .unknown
  | .opened _ _ .done | .configured _ _ _ .done | .xfer _ (some _) | .delay _ | .closed _ => l

/-- The chip-select level a list of events leads to. -/
def traceLevel (l : Cs) (es : List Event) : Cs := es.foldl levelAfter l

/-! ### The invariant -/

/-- What holds of every state a host reaches from an unopened instance. -/
structure Inv (s : State) : Prop where
  /-- the reference voltage of an open instance is positive (10_state.md R27) -/
  vrefPositive : s.life = .opened → 0 < s.vref
  /-- the feature-select value of an open instance is its initial one (10_state.md R28) -/
  featureInitial : s.life = .opened → s.feature = s.cfg.featureInit
  /-- the trace is legal and ends outside every chip-select window (70_reset_and_hazards.md R250) -/
  traceLegal : tracePhase s.cfg .closed s.trace = some (restPhase s.life)
  /-- `cs` is the level the trace leads to (10_state.md R31) -/
  csMirrors : s.cs = traceLevel .unknown s.trace

end Sys2Proof.Machine
end

