-- ==== Sys2Proof/Certificates/Slice0/Obligations.lean ====
section
/-! DEFINITION. The statements for the provers.  Each docstring says which rule or section of spec/ it
formalises.  "Served" means that the outside world's next answers (`State.answers`) let every
transport call of the operation return; the answers' bytes are arbitrary. -/

open Sys2Proof Sys2Proof.Machine

/-! ### Transcription and encoding -/

/-- The words of the fourteen command rows of spec/opcode_table.json, written out, decode to their rows,
and so do three sample words of the rows `WREG` and `RREG` (30_encoding.md R73, R75, R80); six sample
words of no row are rejected (R82, R83). The opcode values are the table's, which the spec marks as
general knowledge (log entry 2); that a call may be written as a table word, and what is rejected
there, is the model's choice (log entry 3). -/
def Obligations.CommandRowWordsAndSampleWordsDecode : Prop :=
  decodeTableWord 16 0x0000 = some .noop ∧ decodeTableWord 16 0x8200 = some .stdby ∧
  decodeTableWord 16 0x8300 = some .pwrdn ∧ decodeTableWord 16 0x8500 = some .rst ∧
  decodeTableWord 16 0xA000 = some .autorst ∧ decodeTableWord 16 0xC000 = some .man0 ∧
  decodeTableWord 16 0xC400 = some .man1 ∧ decodeTableWord 16 0xC800 = some .man2 ∧
  decodeTableWord 16 0xCC00 = some .man3 ∧ decodeTableWord 16 0xD000 = some .man4 ∧
  decodeTableWord 16 0xD400 = some .man5 ∧ decodeTableWord 16 0xD800 = some .man6 ∧
  decodeTableWord 16 0xDC00 = some .man7 ∧ decodeTableWord 16 0xE000 = some (.manAux 8) ∧
  decodeTableWord 24 0x0B0600 = some (.wreg 0x05 0x06) ∧
  decodeTableWord 24 0x79FF00 = some (.wreg 0x3C 0xFF) ∧
  decodeTableWord 24 0x7E0000 = some (.rreg 0x3F) ∧
  decodeTableWord 16 0x8400 = none ∧ decodeTableWord 16 0xE400 = none ∧
  decodeTableWord 16 0x8201 = none ∧ decodeTableWord 24 0x800000 = none ∧
  decodeTableWord 24 0x0B0601 = none ∧ decodeTableWord 24 0x7E0100 = none

/-- Decoding an encoded well-formed operation gives it back, for all 27 constructors and every operand
value (30_encoding.md R73, R75, R85). -/
def Obligations.DecodeOfEncodeIsIdentity : Prop :=
  ∀ i : Instr, i.wf = true → decode (encode i) = .ok i

/-- The call by mnemonic of a well-formed operation is transcribed to it (30_encoding.md R85). -/
def Obligations.CallByMnemonicRoundTrips : Prop :=
  ∀ i : Instr, i.wf = true → decode (callOf i) = .ok i

/-- Each word has one reading: a word that decodes is the encoding of what it decodes to, which is
well formed (30_encoding.md R81 to R83). -/
def Obligations.EveryDecodedWordIsTheEncoding : Prop :=
  ∀ (bytes : List Byte) (i : Instr), decode (.word bytes) = .ok i →
    encode i = .word bytes ∧ i.wf = true

/-- An operand that does not fit its declared type (a byte or raw operand that is too wide, any operand
but a rational one that is no natural number), a raw opcode byte and an overlapping call are
refused: the step has no next state (60_exceptions.md section 3, R220; the refusals are the spec's
decisions D10, D16). -/
def Obligations.CallsThatAreNoOperationAreRefused : Prop :=
  ∀ (s : State) (call : HostCall) (n : Nat) (q : Rat) (a r : Operand),
    s.stopped = false → s.fetch = some call →
    (256 ≤ n ∧ (call = .call .wreg [a, .num n] ∨ call = .call .setseq [.num n] ∨
        call = .call .setpd [.num n] ∨ call = .call .setseqpd [.num n])) ∨
      (65536 ≤ n ∧ (call = .call .r2v [.num n] ∨ call = .call .r2v [.num n, r])) ∨
      ((q.den ≠ 1 ∨ q < 0) ∧ (call = .call .man [.num q] ∨ call = .call .rreg [.num q] ∨
        call = .call .wreg [.num q, r] ∨ call = .call .setgrange [.num q] ∨
        call = .call .setrange [.num q, r] ∨ call = .call .setrange [a, .num q] ∨
        call = .call .r2v [a, .num q] ∨ call = .call .v2r [a, .num q] ∨
        call = .call .wreg [a, .num q] ∨ call = .call .setseq [.num q] ∨
        call = .call .setpd [.num q] ∨ call = .call .setseqpd [.num q] ∨
        call = .call .r2v [.num q] ∨ call = .call .r2v [.num q, r])) ∨
      (∃ op, call = .rawOpcode op) ∨ (∃ m args, call = .overlapping m args) →
    ∃ e, step s = .refused (.noOperation e)

/-- The host call at `pc`, transcribed to an operation, is what the step performs; a program that is
stopped or at its end has no step, and a loaded table word is the next step's operation
(10_state.md section 1, R22; the program and its stop are the spec's decision D25, log entry 4). -/
def Obligations.StepPerformsTheTranscribedCall : Prop :=
  (∀ (s : State) (call : HostCall) (i : Instr), s.stopped = false → s.program[s.pc]? = some call →
    decode call = .ok i → step s = exec i s) ∧
  (∀ s : State, s.stopped = false → s.program[s.pc]? = none → step s = .fault .programEnded) ∧
  (∀ (s : State) (e : Err), s.result = some (.err e) → step s = .fault .programStopped) ∧
  (∀ (s : State) (nbits w : Nat) (i : Instr), decodeTableWord nbits w = some i →
    step (s.withFetchWord nbits w) = exec i (s.withFetchWord nbits w))

/-- `pc` advances by exactly 1 when an operation completes with `Ok`; an `Err` leaves `pc` and stops
the program (10_state.md section 1, R22; decision D25). -/
def Obligations.ProgramCounterAdvancesOnlyOnOk : Prop :=
  ∀ s t : State, step s = .next t →
    (∃ v, t.result = some (.ok v) ∧ t.pc = s.pc + 1) ∨
    (∃ e, t.result = some (.err e) ∧ t.pc = s.pc ∧ step t = .fault .programStopped)

/-- The six lines 30_encoding.md R86 gives as examples, and a comment line, are the calls they spell
(section 4; decision D26). -/
def Obligations.ExampleLinesAreTheirCalls : Prop :=
  assemble "RST\nMAN 3\nMAN AUX ; auxiliary\nWREG 0x05, 0x06\n; comment\nSETGRANGE R6\nR2V 0x8000, R0".toList =
    .ok [.call .rst [], .call .man [.num 3], .call .man [.aux], .call .wreg [.num 5, .num 6],
      .call .setgrange [.range 6], .call .r2v [.num 32768, .range 0]]

/-- Under the default parameters the first bytes an operation puts on the wire are its opcode table
word (30_encoding.md sections 1 and 2; opcode values are general knowledge, log entry 2). -/
def Obligations.FirstExchangeIsTheTableWord : Prop :=
  ∀ (i : Instr) (bytes : List Byte) (s t : State) (v : Value),
    encodeWord i = some bytes → s.cfg = defaultConfig → exec i s = .next t →
    t.result = some (.ok v) →
    ∃ es, t.trace = s.trace ++ es ∧ (outBytes es).head? = some bytes

/-! ### The mode state machine and the commands -/

/-- The membership of the echo set, in the model's own predicate (41_commands.md section 1). -/
def Obligations.EchoSetHasExactlyFourModes : Prop :=
  ∀ m : Mode, m.echoes = true ↔ (m = .reset ∨ m = .manual ∨ m = .auto ∨ m = .autoReset)

/-- 41_commands.md R124: the mode a completed command leaves, for every pre-state, and the only ways
into Auto and Program. -/
def Obligations.CommandsFollowTheTransitionTable : Prop :=
  (∀ (i : Instr) (cmd : Cmd) (s t : State) (v : Value), commandOf i = some cmd →
    exec i s = .next t → t.result = some (.ok v) →
    (cmd = .noop → (s.mode = .reset ∨ s.mode = .program → t.mode = .idle) ∧
      (s.mode = .autoReset → t.mode = .auto) ∧
      (s.mode ≠ .reset → s.mode ≠ .program → s.mode ≠ .autoReset → t.mode = s.mode)) ∧
    (cmd = .stdby → t.mode = .standby) ∧ (cmd = .pwrdn → t.mode = .powerDown) ∧
    (cmd = .rst → t.mode = .reset) ∧ (cmd = .autorst → t.mode = .autoReset) ∧
    (∀ ch, cmd = .man ch → t.mode = .manual)) ∧
  (∀ (i : Instr) (s t : State), exec i s = .next t → t.mode = .auto → s.mode ≠ .auto →
    i = .noop ∧ s.mode = .autoReset) ∧
  (∀ (i : Instr) (s t : State), exec i s = .next t → t.mode = .program → s.mode ≠ .program →
    isRegisterOp i = true)

/-- Every command (`NOOP`, `STDBY`, `PWRDN`, `RST`, `AUTORST`, `MAN 0` to `MAN 7`, `MAN AUX`) from a
pre-state outside the echo set, served, answers a next state, and this one: one exchange, result 0, the
settling delay iff the pre-state is PowerDown (41_commands.md sections 1 and 2; decision D8). -/
def Obligations.CommandOutsideTheEchoSetCompletes : Prop :=
  ∀ (i : Instr) (cmd : Cmd) (s : State) (a in1 d : List Byte) (rest : List Answer),
    commandOf i = some cmd → s.life = .opened → s.mode.echoes = false → in1.length = 2 →
    s.answers = .returns a :: .returns in1 :: .returns d :: rest →
    exec i s = .next { s with
      trace := s.trace ++ [.cs .assert .done, .xfer [opcodeOf s.cfg.opcodes cmd, 0x00] (some in1),
        .cs .deassert .done] ++
        (if s.mode = .powerDown then [.delay s.cfg.settleDelayMs] else []),
      mode := s.mode.next cmd, cs := .deassert, answers := rest,
      result := some (.ok (.u16 0)), pc := s.pc + 1 }

/-- Every command from a pre-state in the echo set, served, answers a next state, and this one: a
second exchange of `[0x00, 0x00]` (decision D7) and the value its reply makes, most significant byte
first (41_commands.md sections 1 and 2, 20_memory.md section 2). -/
def Obligations.CommandInTheEchoSetCompletes : Prop :=
  ∀ (i : Instr) (cmd : Cmd) (s : State) (a in1 d : List Byte) (hi lo : Byte) (rest : List Answer),
    commandOf i = some cmd → s.life = .opened → s.mode.echoes = true → in1.length = 2 →
    s.answers = .returns a :: .returns in1 :: .returns [hi, lo] :: .returns d :: rest →
    ∃ w : Word, w.toNat = 256 * hi.toNat + lo.toNat ∧
    exec i s = .next { s with
      trace := s.trace ++ [.cs .assert .done, .xfer [opcodeOf s.cfg.opcodes cmd, 0x00] (some in1),
        .xfer [0x00, 0x00] (some [hi, lo]), .cs .deassert .done],
      mode := s.mode.next cmd, cs := .deassert, answers := rest,
      result := some (.ok (.u16 w)), pc := s.pc + 1 }

/-- 41_commands.md R121, R125: the two-byte echo happens exactly from the echo set, whatever the
command; its value is the second exchange's reply, most significant byte first, and otherwise 0; the
number of exchanges tells the two apart. -/
def Obligations.EchoIsDecidedByThePreState : Prop :=
  ∀ (i : Instr) (cmd : Cmd) (s t : State) (v : Value), commandOf i = some cmd →
    exec i s = .next t → t.result = some (.ok v) →
    ∃ es, t.trace = s.trace ++ es ∧
      ((s.mode = .reset ∨ s.mode = .manual ∨ s.mode = .auto ∨ s.mode = .autoReset) →
        ∃ (in1 : List Byte) (hi lo : Byte) (w : Word),
          inBytes es = [some in1, some [hi, lo]] ∧ v = .u16 w ∧
          w.toNat = 256 * hi.toNat + lo.toNat) ∧
      ((s.mode = .idle ∨ s.mode = .standby ∨ s.mode = .powerDown ∨ s.mode = .program) →
        ∃ in1 : List Byte, inBytes es = [some in1] ∧ v = .u16 0)

/-- The settling delay (41_commands.md section 1, R126; the value 15 is decision D8): a completed
command from PowerDown ends with it, exactly once; from every other pre-state, and in an aborted
command, there is none. -/
def Obligations.SettlingDelayExactlyOncePerCommandFromPowerDown : Prop :=
  defaultConfig.settleDelayMs = 15 ∧
  ∀ (i : Instr) (cmd : Cmd) (s t : State), commandOf i = some cmd → exec i s = .next t →
    ∃ es, t.trace = s.trace ++ es ∧
      ((∃ v, t.result = some (.ok v)) → s.mode = .powerDown → delayCount es = 1 ∧
        ∃ fs, es = fs ++ [.cs .deassert .done, .delay s.cfg.settleDelayMs]) ∧
      (((∃ e, t.result = some (.err e)) ∨ s.mode ≠ .powerDown) → delayCount es = 0)

/-- No operation but a command waits: register accesses and helpers insert no delay even from
PowerDown (70_reset_and_hazards.md section 3, R252; decision D9), nor do the others. -/
def Obligations.OnlyCommandsWait : Prop :=
  ∀ (i : Instr) (s t : State), commandOf i = none → exec i s = .next t →
    ∃ es, t.trace = s.trace ++ es ∧ delayCount es = 0

/-- `MAN ch` with ch above 8 completes with `InvalidChannel` and writes nothing else (41_commands.md
section 2, R134; 60_exceptions.md R214; decisions D13, D15). -/
def Obligations.ManualSelectOfNoChannelIsInvalidChannel : Prop :=
  ∀ (ch : Nat) (s : State), 8 < ch → s.life = .opened →
    exec (.manAux ch) s = .next { s with result := some (.err (.invalidChannel ch)) }

/-- A command whose transport fails leaves the mode, drives nothing more, sets `cs` UNKNOWN and ends
with the failed call's event (60_exceptions.md section 2, R216; decision D14). -/
def Obligations.AbortedCommandKeepsTheMode : Prop :=
  ∀ (i : Instr) (cmd : Cmd) (s t : State) (e : Err), commandOf i = some cmd →
    exec i s = .next t → t.result = some (.err e) →
    t.mode = s.mode ∧ t.cs = .unknown ∧ t.pc = s.pc ∧
      ∃ es f c, t.trace = s.trace ++ es ++ [f] ∧ e = .transport c ∧ f.failedCall = some c ∧
        delayCount es = 0 ∧ ∀ x ∈ es, x.isFail = false

/-- A command whose n-th transport call fails, or whose exchange returns another number of bytes than
it was given, answers exactly this next state (60_exceptions.md section 2, R215, R216; 40_lifecycle.md
section 1; decisions D14, D29). -/
def Obligations.CommandFailsAtEachTransportCall : Prop :=
  ∀ (i : Instr) (cmd : Cmd) (s : State) (a in1 in2 bad : List Byte) (ans : Answer)
    (rest : List Answer),
    commandOf i = some cmd → s.life = .opened → in1.length = 2 → in2.length = 2 → bad.length ≠ 2 →
    (s.answers = .fails :: rest →
      exec i s = .next { s with
        trace := s.trace ++ [.cs .assert .fail], cs := .unknown, answers := rest,
        result := some (.err (.transport .cs)) }) ∧
    (ans = .fails ∨ ans = .returns bad → s.answers = .returns a :: ans :: rest →
      exec i s = .next { s with
        trace := s.trace ++ [.cs .assert .done, .xfer [opcodeOf s.cfg.opcodes cmd, 0x00] none],
        cs := .unknown, answers := rest,
        result := some (.err (.transport (.exchange [opcodeOf s.cfg.opcodes cmd, 0x00]))) }) ∧
    (s.mode.echoes = true → ans = .fails ∨ ans = .returns bad →
      s.answers = .returns a :: .returns in1 :: ans :: rest →
      exec i s = .next { s with
        trace := s.trace ++ [.cs .assert .done,
          .xfer [opcodeOf s.cfg.opcodes cmd, 0x00] (some in1), .xfer [0x00, 0x00] none],
        cs := .unknown, answers := rest,
        result := some (.err (.transport (.exchange [0x00, 0x00]))) }) ∧
    (s.mode.echoes = true →
      s.answers = .returns a :: .returns in1 :: .returns in2 :: .fails :: rest →
      exec i s = .next { s with
        trace := s.trace ++ [.cs .assert .done,
          .xfer [opcodeOf s.cfg.opcodes cmd, 0x00] (some in1), .xfer [0x00, 0x00] (some in2),
          .cs .deassert .fail],
        cs := .unknown, answers := rest, result := some (.err (.transport .cs)) }) ∧
    (s.mode.echoes = false → s.answers = .returns a :: .returns in1 :: .fails :: rest →
      exec i s = .next { s with
        trace := s.trace ++ [.cs .assert .done,
          .xfer [opcodeOf s.cfg.opcodes cmd, 0x00] (some in1), .cs .deassert .fail],
        cs := .unknown, answers := rest, result := some (.err (.transport .cs)) })

/-! ### Register access -/

/-- `WREG` of a writable register, served, answers a next state, and this one (42_registers.md section
2, R152; decisions D5, D9). -/
def Obligations.RegisterWriteCompletes : Prop :=
  ∀ (addr : Nat) (v b0 b1 b2 : Byte) (s : State) (a d : List Byte) (rest : List Answer),
    s.life = .opened → addr ≤ 0x3F →
    (accessOf addr s.cfg.regmap = .rw ∨ accessOf addr s.cfg.regmap = .wo) →
    s.answers = .returns a :: .returns [b0, b1, b2] :: .returns d :: rest →
    exec (.wreg addr v) s = .next { s with
      trace := s.trace ++ [.cs .assert .done,
        .xfer [BitVec.ofNat 8 (2 * addr + 1), v, 0x00] (some [b0, b1, b2]), .cs .deassert .done],
      mode := .program, cs := .deassert, answers := rest,
      result := some (.ok (.u8 b2)), pc := s.pc + 1 }

/-- `RREG` of a readable register, served, answers a next state, and this one (42_registers.md section
3, R156; decisions D5, D9). -/
def Obligations.RegisterReadCompletes : Prop :=
  ∀ (addr : Nat) (b0 b1 b2 : Byte) (s : State) (a d : List Byte) (rest : List Answer),
    s.life = .opened → addr ≤ 0x3F →
    (accessOf addr s.cfg.regmap = .rw ∨ accessOf addr s.cfg.regmap = .ro) →
    s.answers = .returns a :: .returns [b0, b1, b2] :: .returns d :: rest →
    exec (.rreg addr) s = .next { s with
      trace := s.trace ++ [.cs .assert .done,
        .xfer [BitVec.ofNat 8 (2 * addr), 0x00, 0x00] (some [b0, b1, b2]), .cs .deassert .done],
      mode := .program, cs := .deassert, answers := rest,
      result := some (.ok (.u8 b2)), pc := s.pc + 1 }

/-- `WREG` and `RREG` of an address above 0x3F, an absent register or one of the wrong access class
complete with `InvalidRegister` and write nothing else (42_registers.md section 1, R150;
60_exceptions.md R214; decisions D5, D13). -/
def Obligations.RegisterCheckRaisesInvalidRegister : Prop :=
  ∀ (addr : Nat) (v : Byte) (s : State), s.life = .opened →
    (0x3F < addr ∨ accessOf addr s.cfg.regmap = .absent ∨ accessOf addr s.cfg.regmap = .ro →
      exec (.wreg addr v) s = .next { s with result := some (.err (.invalidRegister addr)) }) ∧
    (0x3F < addr ∨ accessOf addr s.cfg.regmap = .absent ∨ accessOf addr s.cfg.regmap = .wo →
      exec (.rreg addr) s = .next { s with result := some (.err (.invalidRegister addr)) })

/-- Under the default `REGMAP` the writable and the readable addresses are exactly those 42_registers.md
(sections 2 and 3, R151, R155) lists; the map is general knowledge (log entry 2). -/
def Obligations.DefaultRegisterMapAdmits : Prop :=
  ∀ addr : Nat,
    (registerOk defaultConfig addr .write = true ↔
      (addr = 0x01 ∨ addr = 0x02 ∨ addr = 0x03 ∨ (0x05 ≤ addr ∧ addr ≤ 0x0C) ∨
        (0x15 ≤ addr ∧ addr ≤ 0x3C))) ∧
    (registerOk defaultConfig addr .read = true ↔
      ((0x01 ≤ addr ∧ addr ≤ 0x03) ∨ (0x05 ≤ addr ∧ addr ≤ 0x0C) ∨
        (0x10 ≤ addr ∧ addr ≤ 0x3C) ∨ addr = 0x3F))

/-- 42_registers.md R157: whatever register operation completes (`WREG`, `RREG` or a helper), what it
appends is a sequence of windows, each one `CS(ASSERT)`, exactly one exchange of three bytes, and
`CS(DEASSERT)`; nothing else is interleaved.  The third kind, a command, holds its two-byte exchanges
in one window of its own. -/
def Obligations.RegisterWindowHoldsOneExchange : Prop :=
  (∀ (i : Instr) (s t : State) (v : Value), isRegisterOp i = true → exec i s = .next t →
    t.result = some (.ok v) →
    ∃ windows : List (List Byte × List Byte),
      (∀ w ∈ windows, w.1.length = 3 ∧ w.2.length = 3) ∧ windows ≠ [] ∧
      t.trace = s.trace ++ windows.flatMap fun w =>
        [.cs .assert .done, .xfer w.1 (some w.2), .cs .deassert .done]) ∧
  (∀ (i : Instr) (cmd : Cmd) (s t : State) (v : Value), commandOf i = some cmd →
    exec i s = .next t → t.result = some (.ok v) →
    ∃ (exchanges : List (List Byte × List Byte)) (after : List Event),
      (∀ x ∈ exchanges, x.1.length = 2 ∧ x.2.length = 2) ∧
      (exchanges.length = 1 ∨ exchanges.length = 2) ∧
      (after = [] ∨ after = [.delay s.cfg.settleDelayMs]) ∧
      t.trace = s.trace ++ [.cs .assert .done] ++
        (exchanges.map fun x => Event.xfer x.1 (some x.2)) ++ [.cs .deassert .done] ++ after)

/-- 30_encoding.md R80: the worked register write frame, and the helper that sends it under the
general-knowledge defaults. -/
def Obligations.WorkedWriteFrame : Prop :=
  (∀ (s t : State) (v : Value), exec (.wreg 0x05 0x06) s = .next t → t.result = some (.ok v) →
    ∃ es, t.trace = s.trace ++ es ∧ outBytes es = [[0x0B, 0x06, 0x00]]) ∧
  (0x05 <<< 1 ||| 0x01 = 0x0B) ∧
  (∀ (s t : State) (v : Value), s.cfg = defaultConfig → exec (.setrange 0 6) s = .next t →
    t.result = some (.ok v) →
    ∃ es, t.trace = s.trace ++ es ∧ outBytes es = [[0x0B, 0x06, 0x00]])

/-- A register access whose transport fails leaves the mode, drives nothing more, sets `cs` UNKNOWN and
ends with the failed call's event, at each of its three calls (60_exceptions.md section 2, R216;
decision D14). -/
def Obligations.RegisterAccessFailsAtEachTransportCall : Prop :=
  ∀ (i : Instr) (frame a reply bad : List Byte) (s : State) (ans : Answer) (rest : List Answer),
    s.life = .opened → reply.length = 3 → bad.length ≠ 3 →
    ((∃ addr v, i = .wreg addr v ∧ registerOk s.cfg addr .write = true ∧ frame = writeFrame addr v) ∨
      (∃ addr, i = .rreg addr ∧ registerOk s.cfg addr .read = true ∧ frame = readFrame addr)) →
    (s.answers = .fails :: rest →
      exec i s = .next { s with
        trace := s.trace ++ [.cs .assert .fail], cs := .unknown, answers := rest,
        result := some (.err (.transport .cs)) }) ∧
    (ans = .fails ∨ ans = .returns bad → s.answers = .returns a :: ans :: rest →
      exec i s = .next { s with
        trace := s.trace ++ [.cs .assert .done, .xfer frame none], cs := .unknown, answers := rest,
        result := some (.err (.transport (.exchange frame))) }) ∧
    (s.answers = .returns a :: .returns reply :: .fails :: rest →
      exec i s = .next { s with
        trace := s.trace ++ [.cs .assert .done, .xfer frame (some reply), .cs .deassert .fail],
        cs := .unknown, answers := rest, result := some (.err (.transport .cs)) })

/-! ### Channel configuration -/

/-- Every helper (`SETRANGE`, `SETGRANGE`, `SETSEQ`, `SETPD`, `SETSEQPD`) with legal operands, served,
answers a next state, and this one: the writes in order, each in its own window, mode Program, result
`Ok(unit)` (43_channel_config.md section 2; decision D17). -/
def Obligations.HelperCompletes : Prop :=
  ∀ (i : Instr) (ws : List (Nat × Byte)) (s : State) (rs : List Served) (rest : List Answer),
    s.life = .opened → helperWrites s.cfg i = some ws → allWritable s.cfg ws = true →
    rs.length = ws.length → (∀ r ∈ rs, r.onExchange.length = 3) →
    s.answers = servedAnswers rs ++ rest →
    exec i s = .next { s with
      trace := s.trace ++ writeEvents ws rs, mode := .program, cs := .deassert, answers := rest,
      result := some (.ok .unit), pc := s.pc + 1 }

/-- Each helper is its expansion into primitive operations, for the whole state, where every register
of the expansion admits its write (30_encoding.md section 4, R87); it differs in checking its operands
first, in returning `Ok(unit)` and in counting as one operation; and no other operation has an
expansion.  A helper one of whose registers does not admit its write, which only another register map
than the default makes, ends with `InvalidRegister` before its first transport call (60_exceptions.md
R214, R218; which address it names is log entry 8). -/
def Obligations.HelperIsItsExpansion : Prop :=
  (∀ (i : Instr) (is : List Instr) (ws : List (Nat × Byte)) (s : State), s.life = .opened →
    expansion s.cfg i = some is → helperWrites s.cfg i = some ws → allWritable s.cfg ws = true →
    exec i s = match execUntilErr is s with
      | .next t => .next (helperReturn s t)
      | .fault r => .fault r
      | .refused r => .refused r) ∧
  (∀ (i : Instr) (is : List Instr) (s : State), s.life = .opened → expansion s.cfg i = some is →
    ∃ ws, helperWrites s.cfg i = some ws ∧ (allWritable s.cfg ws = false →
      ∃ addr, exec i s = .next { s with result := some (.err (.invalidRegister addr)) } ∧
        registerOk s.cfg addr .write = false)) ∧
  (∀ (ch r : Nat) (s : State), s.life = .opened →
    (expansion s.cfg (.setrange ch r) = none →
      ∃ e, exec (.setrange ch r) s = .next { s with result := some (.err e) }) ∧
    (expansion s.cfg (.setgrange r) = none →
      ∃ e, exec (.setgrange r) s = .next { s with result := some (.err e) })) ∧
  (∀ (i : Instr) (cfg : Config) (is : List Instr), expansion cfg i = some is →
    (∃ ch r, i = .setrange ch r) ∨ (∃ r, i = .setgrange r) ∨ (∃ m, i = .setseq m) ∨
      (∃ m, i = .setpd m) ∨ (∃ m, i = .setseqpd m))

/-- The frames of the helpers under the default parameters (43_channel_config.md section 2;
95_test_vectors.md E2, V50 to V62; the addresses and codes are general knowledge, log entry 2). -/
def Obligations.HelperFramesUnderTheDefaults : Prop :=
  ∀ (i : Instr) (frames : List (List Byte)) (s t : State) (v : Value), s.cfg = defaultConfig →
    exec i s = .next t → t.result = some (.ok v) →
    (∃ ch r, ch ≤ 7 ∧ r ≤ 8 ∧ i = .setrange ch r ∧ frames = [[BitVec.ofNat 8 (0x0B + 2 * ch),
      [0x00, 0x01, 0x02, 0x03, 0x0B, 0x05, 0x06, 0x07, 0x0F].getD r 0, 0x00]]) ∨
    (∃ r c, r ≤ 8 ∧ c = [0x00, 0x01, 0x02, 0x03, 0x0B, 0x05, 0x06, 0x07, 0x0F].getD r 0 ∧
      i = .setgrange r ∧ frames = [[0x0B, c, 0x00], [0x0D, c, 0x00], [0x0F, c, 0x00],
        [0x11, c, 0x00], [0x13, c, 0x00], [0x15, c, 0x00], [0x17, c, 0x00], [0x19, c, 0x00]]) ∨
    (∃ m, i = .setseq m ∧ frames = [[0x03, m, 0x00]]) ∨
    (∃ m, i = .setpd m ∧ frames = [[0x05, m, 0x00]]) ∨
    (∃ m, i = .setseqpd m ∧ frames = [[0x03, m, 0x00], [0x05, ~~~m, 0x00]]) →
    ∃ es, t.trace = s.trace ++ es ∧ outBytes es = frames

/-- 60_exceptions.md section 2 (R217; the abort of the write itself: decision D14): a helper aborted by a transport failure in write k keeps the writes before
it, issues no later one, and returns the error of the failed call, whose event is the last; the mode is
Program once a write completed. -/
def Obligations.AbortedHelperKeepsItsEarlierWrites : Prop :=
  ∀ (i : Instr) (ws : List (Nat × Byte)) (s t : State) (c : FailedCall),
    helperWrites s.cfg i = some ws → exec i s = .next t →
    t.result = some (.err (.transport c)) →
    ∃ (k : Nat) (w : Nat × Byte) (rs : List Served) (es : List Event) (f : Event),
      ws[k]? = some w ∧ rs.length = k ∧
      t.trace = s.trace ++ writeEvents (ws.take k) rs ++ es ++ [f] ∧ f.failedCall = some c ∧
      (∀ x ∈ es, x.isFail = false) ∧
      (outBytes (es ++ [f]) = [] ∨ outBytes (es ++ [f]) = [writeFrame w.1 w.2]) ∧
      t.mode = (if k = 0 then s.mode else .program) ∧ t.cs = .unknown ∧ t.pc = s.pc

/-- 43_channel_config.md R177: re-issuing a helper with the same operands produces the same frames,
whatever happened before. -/
def Obligations.ReissuedHelperSendsTheSameFrames : Prop :=
  ∀ (i : Instr) (s t s' t' : State) (v v' : Value), (helperWrites s.cfg i).isSome = true →
    s'.cfg = s.cfg → exec i s = .next t → t.result = some (.ok v) →
    exec i s' = .next t' → t'.result = some (.ok v') →
    ∃ es es', t.trace = s.trace ++ es ∧ t'.trace = s'.trace ++ es' ∧ outBytes es = outBytes es'

/-- The operand errors of the helpers, the channel before the range, the range before the register, and
all before any transport call, with nothing written (43_channel_config.md section 2; 60_exceptions.md
R214, R218; decisions D12, D13, D15).  Where several registers do not admit their writes the helper
names the first in write order (log entry 8); under the default map none is refused (log entry 2). -/
def Obligations.HelperOperandErrors : Prop :=
  helpersWritable defaultConfig = true ∧
  (∀ (ch r : Nat) (s : State), s.life = .opened →
    (7 < ch → exec (.setrange ch r) s = .next { s with result := some (.err (.invalidChannel ch)) }) ∧
    (ch ≤ 7 → 8 < r →
      exec (.setrange ch r) s = .next { s with result := some (.err (.invalidRange r)) }) ∧
    (8 < r → exec (.setgrange r) s = .next { s with result := some (.err (.invalidRange r)) })) ∧
  (∀ (i : Instr) (ws : List (Nat × Byte)) (k addr : Nat) (v : Byte) (s : State),
    s.life = .opened → helperWrites s.cfg i = some ws → ws[k]? = some (addr, v) →
    allWritable s.cfg (ws.take k) = true → registerOk s.cfg addr .write = false →
    exec i s = .next { s with result := some (.err (.invalidRegister addr)) })

/-! ### Lifecycle and accessors -/

/-- `OPEN` of a closed instance with a positive reference voltage, served, answers a next state, and
this one (40_lifecycle.md section 2, R104; 10_state.md section 5, R40; decisions D20 to D23). -/
def Obligations.OpenCompletes : Prop :=
  ∀ (busId deviceId csLine vref spiHz : Rat) (s : State) (a b d : List Byte) (rest : List Answer),
    s.life = .closed → 0 < vref →
    s.answers = .returns a :: .returns b :: .returns d :: rest →
    exec (.openInst busId deviceId csLine vref spiHz) s = .next { s with
      life := .opened, mode := .idle, vref := vref, feature := s.cfg.featureInit, cs := .deassert,
      busId := busId, deviceId := deviceId, csLine := csLine, spiHz := spiHz,
      trace := s.trace ++ [.opened busId deviceId .done, .configured 0 spiHz 8 .done,
        .cs .deassert .done],
      answers := rest, result := some (.ok .unit), pc := s.pc + 1 }

/-- The state after reset is the one an `OPEN` whose three transport calls return makes of an instance
never opened (10_state.md section 5, R40), with the construction operands of log entry 1, which also
gives the unread fields of that instance their values. -/
def Obligations.OpeningAnUnopenedInstanceGivesReset : Prop :=
  ∀ a b d : List Byte,
    exec (.openInst resetBusId resetDeviceId resetCsLine resetVref resetSpiHz)
      { State.unopened with answers := [.returns a, .returns b, .returns d] } =
    .next { State.reset with result := some (.ok .unit), pc := 1 }

/-- `OPEN` whose transport fails leaves the instance closed, attempts no cleanup, and names the failed
call (40_lifecycle.md section 2, R104; decision D31; `cs` after it is log entry 7). -/
def Obligations.OpenFailsAtEachTransportCall : Prop :=
  ∀ (busId deviceId csLine vref spiHz : Rat) (s : State) (a b : List Byte) (rest : List Answer),
    s.life = .closed → 0 < vref →
    (s.answers = .fails :: rest →
      exec (.openInst busId deviceId csLine vref spiHz) s = .next { s with
        trace := s.trace ++ [.opened busId deviceId .fail], cs := .unknown, answers := rest,
        result := some (.err (.transport .openBus)) }) ∧
    (s.answers = .returns a :: .fails :: rest →
      exec (.openInst busId deviceId csLine vref spiHz) s = .next { s with
        trace := s.trace ++ [.opened busId deviceId .done, .configured 0 spiHz 8 .fail],
        cs := .unknown, answers := rest, result := some (.err (.transport .configure)) }) ∧
    (s.answers = .returns a :: .returns b :: .fails :: rest →
      exec (.openInst busId deviceId csLine vref spiHz) s = .next { s with
        trace := s.trace ++ [.opened busId deviceId .done, .configured 0 spiHz 8 .done,
          .cs .deassert .fail],
        cs := .unknown, answers := rest, result := some (.err (.transport .cs)) })

/-- The refusals by lifecycle: every operation but `OPEN` and `CLOSE` on a closed instance, `OPEN` on
an open one, `OPEN` with a reference voltage that is not positive (60_exceptions.md section 3, R220;
decisions D19, D21, D27). -/
def Obligations.LifecycleRefusals : Prop :=
  (∀ (i : Instr) (s : State), s.life = .closed → i ≠ .close → isOpenOp i = false →
    exec i s = .refused .closedInstance) ∧
  (∀ (b d c v z : Rat) (s : State), s.life = .opened →
    exec (.openInst b d c v z) s = .refused .alreadyOpen) ∧
  (∀ (b d c v z : Rat) (s : State), s.life = .closed → v ≤ 0 →
    exec (.openInst b d c v z) s = .refused .vrefNotPositive)

/-- `CLOSE` answers a next state: on an open instance with the transport's answer, CLOSED either way;
on a closed one with no transport call (40_lifecycle.md section 3, R106; decisions D21, D30).  That a
failed close keeps `cs`, where R20 and R31 could be read to make it UNKNOWN, is the model's reading, log
entry 7. -/
def Obligations.CloseCompletes : Prop :=
  ∀ (s : State) (a : List Byte) (rest : List Answer),
    (s.life = .opened → s.answers = .returns a :: rest →
      exec .close s = .next { s with
        life := .closed, trace := s.trace ++ [.closed .done], answers := rest,
        result := some (.ok .unit), pc := s.pc + 1 }) ∧
    (s.life = .opened → s.answers = .fails :: rest →
      exec .close s = .next { s with
        life := .closed, trace := s.trace ++ [.closed .fail], answers := rest,
        result := some (.err (.transport .closeBus)) }) ∧
    (s.life = .closed →
      exec .close s = .next { s with result := some (.ok .unit), pc := s.pc + 1 })

/-- `GETMODE` and `GETFEAT` of an open instance answer a next state that differs in the result and `pc`
alone (40_lifecycle.md section 4, R108, R109; decisions D20, D27). -/
def Obligations.AccessorsComplete : Prop :=
  ∀ s : State, s.life = .opened →
    exec .getmode s = .next { s with result := some (.ok (.mode s.mode)), pc := s.pc + 1 } ∧
    exec .getfeat s = .next { s with result := some (.ok (.u8 s.feature)), pc := s.pc + 1 }

/-- Every operation with legal operands, on an instance of the life it runs in, completes with `Ok` where
the outside world's answers serve its transport calls, and takes exactly those answers; whatever the
answers, listed or free (log entry 5), it ends with `Ok`, with a transport failure or in the hang
(00_scope.md section 5, R14; 40_lifecycle.md section 1; 60_exceptions.md sections 1 to 3). -/
def Obligations.EveryServedOperationCompletes : Prop :=
  ∀ (i : Instr) (s : State), s.life = lifeFor i → operandsLegal s.cfg i = true →
    (serves (replyLengths s.cfg s.mode i) s.answers = true →
      ∃ (t : State) (v : Value), exec i s = .next t ∧ t.result = some (.ok v) ∧ t.pc = s.pc + 1 ∧
        t.answers = s.answers.drop (replyLengths s.cfg s.mode i).length) ∧
    ((∃ (t : State) (v : Value), exec i s = .next t ∧ t.result = some (.ok v)) ∨
      (∃ (t : State) (c : FailedCall), exec i s = .next t ∧
        t.result = some (.err (.transport c))) ∨
      exec i s = .fault .transportHang)

/-! ### Scaling -/

/-- The bounds of the nine ranges (44_scaling.md section 1, R190, R191; decision D18). -/
def Obligations.RangeBoundsAreTheTable : Prop :=
  ∀ V : Rat,
    (rangeMin .r0 V = -(5 / 2 * V) ∧ rangeMax .r0 V = 5 / 2 * V) ∧
    (rangeMin .r1 V = -(5 / 4 * V) ∧ rangeMax .r1 V = 5 / 4 * V) ∧
    (rangeMin .r2 V = -(5 / 8 * V) ∧ rangeMax .r2 V = 5 / 8 * V) ∧
    (rangeMin .r3 V = -(5 / 16 * V) ∧ rangeMax .r3 V = 5 / 16 * V) ∧
    (rangeMin .r4 V = -(5 / 32 * V) ∧ rangeMax .r4 V = 5 / 32 * V) ∧
    (rangeMin .r5 V = 0 ∧ rangeMax .r5 V = 5 / 2 * V) ∧
    (rangeMin .r6 V = 0 ∧ rangeMax .r6 V = 5 / 4 * V) ∧
    (rangeMin .r7 V = 0 ∧ rangeMax .r7 V = 5 / 8 * V) ∧
    (rangeMin .r8 V = 0 ∧ rangeMax .r8 V = 5 / 16 * V)

/-- `R2V` of an open instance answers a next state with `raw * (max - min) / 65535 + min`, exactly; in
binary64 arithmetic with a value nothing constrains (44_scaling.md section 1, R192, R194; decisions
D18, D27; log entry 11). -/
def Obligations.RawToVoltsCompletes : Prop :=
  ∀ (raw : Word) (n : Nat) (r : Range) (s : State), s.life = .opened → n = (rangeIndex r).val →
    (s.cfg.scaleArith = .exact →
      exec (.r2v raw n) s = .next { s with
        result := some (.ok (.rational
          ((raw.toNat : Rat) * (rangeMax r s.vref - rangeMin r s.vref) / 65535 + rangeMin r s.vref))),
        pc := s.pc + 1 }) ∧
    ∃ q, exec (.r2v raw n) s =
      .next { s with result := some (.ok (.rational q)), pc := s.pc + 1 }

/-- `V2R` of an open instance answers a next state with `(volts - min) * 65535 / (max - min)`, exactly,
neither rounded nor clamped; in binary64 arithmetic with a value nothing constrains (44_scaling.md
section 1, R193, R194; decisions D18, D27; log entry 11). -/
def Obligations.VoltsToRawCompletes : Prop :=
  ∀ (volts : Rat) (n : Nat) (r : Range) (s : State), s.life = .opened → n = (rangeIndex r).val →
    (s.cfg.scaleArith = .exact →
      exec (.v2r volts n) s = .next { s with
        result := some (.ok (.rational
          ((volts - rangeMin r s.vref) * 65535 / (rangeMax r s.vref - rangeMin r s.vref)))),
        pc := s.pc + 1 }) ∧
    ∃ q, exec (.v2r volts n) s =
      .next { s with result := some (.ok (.rational q)), pc := s.pc + 1 }

/-- `R2V` and `V2R` of a range that is none of R0..R8 complete with `InvalidRange` and write nothing
else (44_scaling.md section 1, R192, R193; 60_exceptions.md R210; decision D13). -/
def Obligations.ScalingRangeErrors : Prop :=
  ∀ (raw : Word) (volts : Rat) (n : Nat) (s : State), s.life = .opened → 8 < n →
    exec (.r2v raw n) s = .next { s with result := some (.err (.invalidRange n)) } ∧
    exec (.v2r volts n) s = .next { s with result := some (.err (.invalidRange n)) }

/-- The exact round trip, inside or outside the range (44_scaling.md section 1, R196). -/
def Obligations.ScalingRoundTripIsExact : Prop :=
  ∀ (V v : Rat) (r : Range), 0 < V →
    rawToVolts V r (voltsToRaw V r v) = v ∧ voltsToRaw V r (rawToVolts V r v) = v

/-- Strict monotonicity, the image in the range's bounds with both ends reached, the constant step and
the scaling with the reference voltage (44_scaling.md section 1, R196). -/
def Obligations.RawToVoltsIsAffineIncreasingOntoTheRange : Prop :=
  ∀ (V : Rat) (r : Range), 0 < V →
    (∀ x y : Nat, x < y → rawToVolts V r x < rawToVolts V r y) ∧
    (∀ x : Nat, x ≤ 65535 →
      rangeMin r V ≤ rawToVolts V r x ∧ rawToVolts V r x ≤ rangeMax r V) ∧
    rawToVolts V r 0 = rangeMin r V ∧ rawToVolts V r 65535 = rangeMax r V ∧
    (∀ x : Nat, rawToVolts V r (x + 1) - rawToVolts V r x = (rangeMax r V - rangeMin r V) / 65535) ∧
    (∀ (c : Rat) (x : Nat), rawToVolts (c * V) r x = c * rawToVolts V r x)

/-! ### Frames -/

/-- `GETMODE`, `GETFEAT`, `R2V` and `V2R` write no driver field, make no transport call and draw no
answer (40_lifecycle.md section 4, 44_scaling.md): only the result and `pc` change. -/
def Obligations.HostOnlyFrame : Prop :=
  ∀ (i : Instr) (s t : State), isHostOnly i = true → exec i s = .next t →
    t = { s with result := t.result, pc := t.pc }

/-- The commands, `WREG`, `RREG` and the helpers write `mode`, `cs` and the trace, which only grows, and
draw answers; every other field is unchanged (41_commands.md, 42_registers.md and 43_channel_config.md,
"State written"; 10_state.md section 1). -/
def Obligations.DeviceOperationFrame : Prop :=
  ∀ (i : Instr) (s t : State), isHostOnly i = false → isOpenOp i = false → i ≠ .close →
    exec i s = .next t →
    t.life = s.life ∧ t.vref = s.vref ∧ t.feature = s.feature ∧ t.busId = s.busId ∧
    t.deviceId = s.deviceId ∧ t.csLine = s.csLine ∧ t.spiHz = s.spiHz ∧ t.cfg = s.cfg ∧
    t.program = s.program ∧ t.transport = s.transport ∧ s.trace <+: t.trace ∧
    t.answers <:+ s.answers

/-- `CLOSE` writes `life` and the trace alone among the driver's fields; `OPEN` that ends in an error
keeps `life`, `mode`, `vref`, `feature` and the construction constants; neither writes the parameters
or the host program (40_lifecycle.md sections 2 and 3).  That `CLOSE` keeps `cs` after a failed close
too, where R20 and R31 could be read to make it UNKNOWN, is the model's reading, log entry 7. -/
def Obligations.LifecycleFrame : Prop :=
  (∀ s t : State, exec .close s = .next t →
    t.mode = s.mode ∧ t.vref = s.vref ∧ t.feature = s.feature ∧ t.cs = s.cs ∧ t.busId = s.busId ∧
    t.deviceId = s.deviceId ∧ t.csLine = s.csLine ∧ t.spiHz = s.spiHz ∧ t.cfg = s.cfg ∧
    t.program = s.program ∧ t.transport = s.transport ∧ s.trace <+: t.trace ∧
    t.answers <:+ s.answers ∧ t.life = .closed) ∧
  (∀ (b d c v z : Rat) (s t : State), exec (.openInst b d c v z) s = .next t →
    t.cfg = s.cfg ∧ t.program = s.program ∧ t.transport = s.transport ∧ s.trace <+: t.trace ∧
    t.answers <:+ s.answers ∧
    (∀ e, t.result = some (.err e) → t.life = s.life ∧ t.mode = s.mode ∧ t.vref = s.vref ∧
      t.feature = s.feature ∧ t.busId = s.busId ∧ t.deviceId = s.deviceId ∧ t.csLine = s.csLine ∧
      t.spiHz = s.spiHz))

/-- Every step of any operation keeps the trace it had as a prefix, the parameters, the host program and
the transport the instance is bound to, and consumes the answers from the front (20_memory.md section 5, 10_state.md section 3). -/
def Obligations.StepOnlyExtendsTheTrace : Prop :=
  ∀ s t : State, step s = .next t →
    s.trace <+: t.trace ∧ t.cfg = s.cfg ∧ t.program = s.program ∧ t.transport = s.transport ∧
    t.answers <:+ s.answers

/-! ### Whole-machine rules -/

/-- The mode of an open instance changes only by the transition table, for a command that completed, and
to Program, for a register access that completed (10_state.md section 2, R25); every completed one of
either makes its change.  An operation that ends in an error keeps the mode, but for the helpers of
several writes, which an error after a completed write leaves in Program (60_exceptions.md section 2,
R217).  On a closed instance, whose mode no operation can read, only a re-initialization sets it
(40_lifecycle.md section 2, R104; 70_reset_and_hazards.md section 1, R240). -/
def Obligations.ModeChangesOnlyByItsTwoCauses : Prop :=
  (∀ (i : Instr) (s t : State), s.life = .opened → exec i s = .next t →
    (t.mode ≠ s.mode →
      (∃ cmd v, commandOf i = some cmd ∧ t.result = some (.ok v) ∧ t.mode = s.mode.next cmd) ∨
      (isRegisterOp i = true ∧ t.mode = .program ∧ ((∃ v, t.result = some (.ok v)) ∨
        ((∃ r, i = .setgrange r) ∨ ∃ m, i = .setseqpd m) ∧
          ∃ c, t.result = some (.err (.transport c))))) ∧
    (∀ e, t.result = some (.err e) → (∀ r, i ≠ .setgrange r) → (∀ m, i ≠ .setseqpd m) →
      t.mode = s.mode) ∧
    (∀ cmd v, commandOf i = some cmd → t.result = some (.ok v) → t.mode = s.mode.next cmd) ∧
    (∀ v, isRegisterOp i = true → t.result = some (.ok v) → t.mode = .program)) ∧
  (∀ (i : Instr) (s t : State), s.life = .closed → exec i s = .next t → t.mode ≠ s.mode →
    isOpenOp i = true ∧ t.mode = .idle)

/-- 60_exceptions.md R211: every transport failure is surfaced, at once, and not retried: the failed
call's event, named by the error, is the last of the operation and the only failed one, and an
operation that appends a failed call's event returns its error. -/
def Obligations.TransportFailureIsNeverRetried : Prop :=
  (∀ (i : Instr) (s t : State) (c : FailedCall), exec i s = .next t →
    t.result = some (.err (.transport c)) →
    ∃ es f, t.trace = s.trace ++ es ++ [f] ∧ f.failedCall = some c ∧ ∀ x ∈ es, x.isFail = false) ∧
  (∀ (i : Instr) (s t : State) (es : List Event) (f : Event), exec i s = .next t →
    t.trace = s.trace ++ es → f ∈ es → f.isFail = true →
    ∃ c, t.result = some (.err (.transport c)))

/-- The operand errors write no field and append no event, whatever the operation and the register map
(60_exceptions.md section 2, R214; decision D13). -/
def Obligations.OperandErrorsWriteNothing : Prop :=
  ∀ (i : Instr) (s t : State) (e : Err), exec i s = .next t →
    t.result = some (.err e) → (∀ c, e ≠ .transport c) →
    t = { s with result := some (.err e) }

/-- A transport call that never returns is a hang (60_exceptions.md section 4, R233; 40_lifecycle.md
section 1, R103): an operation whose first call hangs has no next state, and none that has a next
state took an answer that hangs.  That the hang is the fault `transportHang`, and the operations'
only fault, is log entry 14; that it comes from a listed answer or from a free one is log entry 5. -/
def Obligations.HangHasNoNextState : Prop :=
  (∀ (i : Instr) (s : State) (rest : List Answer), s.life = .opened → s.answers = .hangs :: rest →
    isHostOnly i = false → isOpenOp i = false → operandsLegal s.cfg i = true →
    exec i s = .fault .transportHang) ∧
  (∀ (b d c v z : Rat) (s : State) (rest : List Answer), s.life = .closed → 0 < v →
    s.answers = .hangs :: rest → exec (.openInst b d c v z) s = .fault .transportHang) ∧
  (∀ (i : Instr) (s t : State), exec i s = .next t →
    ∃ used, s.answers = used ++ t.answers ∧ .hangs ∉ used) ∧
  (∀ (i : Instr) (s : State) (r : Fault), exec i s = .fault r → r = .transportHang ∧ MayHang s)

/-- The state after reset, and the instance never opened, meet the invariant (10_state.md section 5).  The
reset state's reference voltage and the unopened instance's `cs` are the model's choice (log entry 1). -/
def Obligations.ResetMeetsTheInvariant : Prop := Inv State.reset ∧ Inv State.unopened

/-- Every step keeps the invariant: a positive reference voltage, the initial feature value, a trace in
which exchanges stand only inside chip-select windows that hold one command or one register access of
a register that admits it, and `cs` the level the trace leads to (70_reset_and_hazards.md R250;
42_registers.md R157; 30_encoding.md R82, R83; 10_state.md R27, R28, R31; 40_lifecycle.md R104, R106
for the calls of `OPEN` and `CLOSE`).  That `cs` is UNKNOWN at first is log entry 1; that it is UNKNOWN
after a failed `OPEN` and kept by a failed `CLOSE` is log entry 7. -/
def Obligations.StepKeepsTheInvariant : Prop :=
  ∀ s t : State, Inv s → step s = .next t → Inv t

/-- A step of one instance changes no other instance of the fleet, and is that instance's own step; it
happens only where each instance has its own transport and no two open instances are bound to one bus
and one chip-select line, whichever instance makes it, and keeps both.  A fleet in which two open
instances are so bound is refused (60_exceptions.md section 4, R232; the fleet, and that a closed
instance is bound to no line, is log entry 12). -/
def Obligations.InstancesShareNoState : Prop :=
  (∀ (k : Nat) (f g : Fleet), fleetStep k f = .next g →
    g.length = f.length ∧ (∀ j, j ≠ k → g[j]? = f[j]?) ∧
    (∃ s t, f[k]? = some s ∧ step s = .next t ∧ g[k]? = some t) ∧
    ∀ h : Fleet, h = f ∨ h = g → (h.map State.transport).Nodup ∧
      ∀ (i j : Nat) (a b : State), i ≠ j → h[i]? = some a → h[j]? = some b →
        a.life = .opened → b.life = .opened → ¬ (a.busId = b.busId ∧ a.csLine = b.csLine)) ∧
  (∀ (k i j : Nat) (f : Fleet) (s a b : State), f[k]? = some s → (f.map State.transport).Nodup →
    i ≠ j → f[i]? = some a → f[j]? = some b → a.life = .opened → b.life = .opened →
    a.busId = b.busId → a.csLine = b.csLine → fleetStep k f = .refused .sharedChipSelect)
end

