-- ==== Sys2Proof/Laws/Decode.lean ====
section
/-! SUPPORT. The fields of a register frame's byte 0, and the operand types read back from what is
written. -/

namespace Sys2Proof

theorem registerByte0_write (addr : Nat) : registerByte0 addr 1 = BitVec.ofNat 8 (2 * addr + 1) := by
  have : addr <<< 1 ||| 1 = 2 * addr + 1 := by
    rw [Nat.shiftLeft_eq, Nat.mul_comm]
    exact Nat.two_pow_add_eq_or_of_lt (i := 1) (b := 1) (by omega) addr |>.symm
  simp [registerByte0, this]

theorem registerByte0_read (addr : Nat) : registerByte0 addr 0 = BitVec.ofNat 8 (2 * addr) := by
  simp [registerByte0, Nat.shiftLeft_eq, Nat.mul_comm]

theorem registerByte0_write_toNat {addr : Nat} (h : addr < 64) :
    (registerByte0 addr 1).toNat = 2 * addr + 1 := by
  rw [registerByte0_write, BitVec.toNat_ofNat]
  omega

theorem registerByte0_read_toNat {addr : Nat} (h : addr < 64) :
    (registerByte0 addr 0).toNat = 2 * addr := by
  rw [registerByte0_read, BitVec.toNat_ofNat]
  omega

/-- Bits 6:1 of byte 0 are the address (30_encoding.md R76). -/
theorem registerByte0_write_address {addr : Nat} (h : addr < 64) :
    (registerByte0 addr 1 >>> 1).toNat = addr := by
  rw [BitVec.toNat_ushiftRight, registerByte0_write_toNat h, Nat.shiftRight_eq_div_pow]
  omega

theorem registerByte0_read_address {addr : Nat} (h : addr < 64) :
    (registerByte0 addr 0 >>> 1).toNat = addr := by
  rw [BitVec.toNat_ushiftRight, registerByte0_read_toNat h, Nat.shiftRight_eq_div_pow]
  omega

theorem registerByte0_write_w {addr : Nat} (h : addr < 64) :
    (registerByte0 addr 1).getLsbD 0 = true := by
  simp only [BitVec.getLsbD, registerByte0_write_toNat h, Nat.testBit_zero]
  simp

theorem registerByte0_read_w {addr : Nat} (h : addr < 64) :
    (registerByte0 addr 0).getLsbD 0 = false := by
  simp only [BitVec.getLsbD, registerByte0_read_toNat h, Nat.testBit_zero]
  simp

theorem registerByte0_write_top {addr : Nat} (h : addr < 64) :
    (registerByte0 addr 1).getLsbD 7 = false := by
  rw [BitVec.getLsbD, registerByte0_write_toNat h]
  exact Nat.testBit_lt_two_pow (by omega)

theorem registerByte0_read_top {addr : Nat} (h : addr < 64) :
    (registerByte0 addr 0).getLsbD 7 = false := by
  rw [BitVec.getLsbD, registerByte0_read_toNat h]
  exact Nat.testBit_lt_two_pow (by omega)

theorem natOfRat_natCast (n : Nat) : natOfRat (n : Rat) = some n := by
  simp [natOfRat]

@[simp] theorem natOperand_natural (n : Nat) : (natOperand n).natural = some n := natOfRat_natCast n

@[simp] theorem natOperand_channel (n : Nat) : (natOperand n).channel = some n := natOfRat_natCast n

@[simp] theorem natOperand_u8 (v : Byte) : (natOperand v.toNat).u8 = some v := by
  simp [Operand.u8, v.isLt]

@[simp] theorem natOperand_u16 (w : Word) : (natOperand w.toNat).u16 = some w := by
  simp [Operand.u16, w.isLt]

/-- A channel of 8 or more is the row `MAN_AUX`'s. -/
theorem manInstr_of_le {ch : Nat} (h : 8 ≤ ch) : manInstr ch = .manAux ch := by
  obtain ⟨n, rfl⟩ := Nat.exists_eq_add_of_le h
  rw [Nat.add_comm]
  rfl

/-- The row an opcode byte selects is a row of the table. -/
theorem commandOfOpcode_mem {op : Byte} {i : Instr} :
    ∀ {rows : List (Byte × Instr)}, commandOfOpcode op rows = some i → (op, i) ∈ rows
  | [], h => by cases h
  | (b, j) :: rows, h => by
    simp only [commandOfOpcode] at h
    split at h
    · cases h
      subst_vars
      simp
    · exact List.mem_cons_of_mem _ (commandOfOpcode_mem h)

/-- Decoder and encoder have the same command rows. -/
theorem commandRows_encode :
    ∀ r ∈ commandRows, encodeWord r.2 = some [r.1, 0x00] ∧ r.2.wf = true := by decide

end Sys2Proof
end

