-- ==== Sys2Proof/Laws/Scaling.lean ====
section
/-! SUPPORT. The spans of the ranges: positive for a positive reference voltage (44_scaling.md R191). -/

namespace Sys2Proof.Machine

variable {r : Range} {V : Rat}

theorem rangeFactor_pos (r : Range) : 0 < rangeFactor r := by
  cases r <;> norm_num [rangeFactor]

theorem rangeSpan_eq (r : Range) (V : Rat) :
    rangeMax r V - rangeMin r V =
      match rangeBipolar r with
      | true => 2 * (rangeFactor r * V)
      | false => rangeFactor r * V := by
  unfold rangeMax rangeMin
  cases rangeBipolar r
  · simp
  · simp only []
    ring

theorem rangeSpan_pos (h : 0 < V) : 0 < rangeMax r V - rangeMin r V := by
  have := mul_pos (rangeFactor_pos r) h
  rw [rangeSpan_eq]
  cases rangeBipolar r <;> simp <;> linarith

theorem rangeSpan_ne_zero (h : 0 < V) : rangeMax r V - rangeMin r V ≠ 0 := (rangeSpan_pos h).ne'

theorem fullScale_pos : (0 : Rat) < fullScale := by norm_num [fullScale]

theorem fullScale_ne_zero : fullScale ≠ 0 := fullScale_pos.ne'

/-- Every enumerator is named by its place, and by no other number. -/
theorem rangeOf_eq_some {n : Nat} : rangeOf n = some r ↔ n = (rangeIndex r).val := by
  constructor
  · intro h
    unfold rangeOf at h
    split at h <;> cases h <;> rfl
  · rintro rfl
    cases r <;> rfl

theorem rangeOf_eq_none {n : Nat} : rangeOf n = none ↔ 8 < n := by
  constructor
  · intro h
    by_contra hn
    have : n ≤ 8 := by omega
    interval_cases n <;> cases h
  · intro h
    obtain ⟨k, rfl⟩ := Nat.exists_eq_add_of_lt h
    rw [show 8 + k + 1 = k + 9 by omega]
    rfl

end Sys2Proof.Machine
end

