-- ==== Sys2Proof/Laws/State.lean ====
section
/-! SUPPORT. One lemma per field per update of the state, true by definition: no later proof unfolds
a record update. -/

namespace Sys2Proof.Machine

variable (s : State)

/-! `State.log` -/

@[simp] theorem State.log_life (e : Event) : (s.log e).life = s.life := rfl
@[simp] theorem State.log_mode (e : Event) : (s.log e).mode = s.mode := rfl
@[simp] theorem State.log_vref (e : Event) : (s.log e).vref = s.vref := rfl
@[simp] theorem State.log_feature (e : Event) : (s.log e).feature = s.feature := rfl
@[simp] theorem State.log_cs (e : Event) : (s.log e).cs = s.cs := rfl
@[simp] theorem State.log_trace (e : Event) : (s.log e).trace = s.trace ++ [e] := rfl
@[simp] theorem State.log_busId (e : Event) : (s.log e).busId = s.busId := rfl
@[simp] theorem State.log_deviceId (e : Event) : (s.log e).deviceId = s.deviceId := rfl
@[simp] theorem State.log_csLine (e : Event) : (s.log e).csLine = s.csLine := rfl
@[simp] theorem State.log_spiHz (e : Event) : (s.log e).spiHz = s.spiHz := rfl
@[simp] theorem State.log_cfg (e : Event) : (s.log e).cfg = s.cfg := rfl
@[simp] theorem State.log_program (e : Event) : (s.log e).program = s.program := rfl
@[simp] theorem State.log_pc (e : Event) : (s.log e).pc = s.pc := rfl
@[simp] theorem State.log_result (e : Event) : (s.log e).result = s.result := rfl
@[simp] theorem State.log_answers (e : Event) : (s.log e).answers = s.answers := rfl
@[simp] theorem State.log_transport (e : Event) : (s.log e).transport = s.transport := rfl
@[simp] theorem State.log_draws (e : Event) : (s.log e).draws = s.draws := rfl

/-! `State.setCs` -/

@[simp] theorem State.setCs_life (l : Cs) : (s.setCs l).life = s.life := rfl
@[simp] theorem State.setCs_mode (l : Cs) : (s.setCs l).mode = s.mode := rfl
@[simp] theorem State.setCs_vref (l : Cs) : (s.setCs l).vref = s.vref := rfl
@[simp] theorem State.setCs_feature (l : Cs) : (s.setCs l).feature = s.feature := rfl
@[simp] theorem State.setCs_cs (l : Cs) : (s.setCs l).cs = l := rfl
@[simp] theorem State.setCs_trace (l : Cs) : (s.setCs l).trace = s.trace := rfl
@[simp] theorem State.setCs_busId (l : Cs) : (s.setCs l).busId = s.busId := rfl
@[simp] theorem State.setCs_deviceId (l : Cs) : (s.setCs l).deviceId = s.deviceId := rfl
@[simp] theorem State.setCs_csLine (l : Cs) : (s.setCs l).csLine = s.csLine := rfl
@[simp] theorem State.setCs_spiHz (l : Cs) : (s.setCs l).spiHz = s.spiHz := rfl
@[simp] theorem State.setCs_cfg (l : Cs) : (s.setCs l).cfg = s.cfg := rfl
@[simp] theorem State.setCs_program (l : Cs) : (s.setCs l).program = s.program := rfl
@[simp] theorem State.setCs_pc (l : Cs) : (s.setCs l).pc = s.pc := rfl
@[simp] theorem State.setCs_result (l : Cs) : (s.setCs l).result = s.result := rfl
@[simp] theorem State.setCs_answers (l : Cs) : (s.setCs l).answers = s.answers := rfl
@[simp] theorem State.setCs_transport (l : Cs) : (s.setCs l).transport = s.transport := rfl
@[simp] theorem State.setCs_draws (l : Cs) : (s.setCs l).draws = s.draws := rfl

/-! `State.setMode` -/

@[simp] theorem State.setMode_life (m : Mode) : (s.setMode m).life = s.life := rfl
@[simp] theorem State.setMode_mode (m : Mode) : (s.setMode m).mode = m := rfl
@[simp] theorem State.setMode_vref (m : Mode) : (s.setMode m).vref = s.vref := rfl
@[simp] theorem State.setMode_feature (m : Mode) : (s.setMode m).feature = s.feature := rfl
@[simp] theorem State.setMode_cs (m : Mode) : (s.setMode m).cs = s.cs := rfl
@[simp] theorem State.setMode_trace (m : Mode) : (s.setMode m).trace = s.trace := rfl
@[simp] theorem State.setMode_busId (m : Mode) : (s.setMode m).busId = s.busId := rfl
@[simp] theorem State.setMode_deviceId (m : Mode) : (s.setMode m).deviceId = s.deviceId := rfl
@[simp] theorem State.setMode_csLine (m : Mode) : (s.setMode m).csLine = s.csLine := rfl
@[simp] theorem State.setMode_spiHz (m : Mode) : (s.setMode m).spiHz = s.spiHz := rfl
@[simp] theorem State.setMode_cfg (m : Mode) : (s.setMode m).cfg = s.cfg := rfl
@[simp] theorem State.setMode_program (m : Mode) : (s.setMode m).program = s.program := rfl
@[simp] theorem State.setMode_pc (m : Mode) : (s.setMode m).pc = s.pc := rfl
@[simp] theorem State.setMode_result (m : Mode) : (s.setMode m).result = s.result := rfl
@[simp] theorem State.setMode_answers (m : Mode) : (s.setMode m).answers = s.answers := rfl
@[simp] theorem State.setMode_transport (m : Mode) : (s.setMode m).transport = s.transport := rfl
@[simp] theorem State.setMode_draws (m : Mode) : (s.setMode m).draws = s.draws := rfl

/-! `State.setLife` -/

@[simp] theorem State.setLife_life (l : Life) : (s.setLife l).life = l := rfl
@[simp] theorem State.setLife_mode (l : Life) : (s.setLife l).mode = s.mode := rfl
@[simp] theorem State.setLife_vref (l : Life) : (s.setLife l).vref = s.vref := rfl
@[simp] theorem State.setLife_feature (l : Life) : (s.setLife l).feature = s.feature := rfl
@[simp] theorem State.setLife_cs (l : Life) : (s.setLife l).cs = s.cs := rfl
@[simp] theorem State.setLife_trace (l : Life) : (s.setLife l).trace = s.trace := rfl
@[simp] theorem State.setLife_busId (l : Life) : (s.setLife l).busId = s.busId := rfl
@[simp] theorem State.setLife_deviceId (l : Life) : (s.setLife l).deviceId = s.deviceId := rfl
@[simp] theorem State.setLife_csLine (l : Life) : (s.setLife l).csLine = s.csLine := rfl
@[simp] theorem State.setLife_spiHz (l : Life) : (s.setLife l).spiHz = s.spiHz := rfl
@[simp] theorem State.setLife_cfg (l : Life) : (s.setLife l).cfg = s.cfg := rfl
@[simp] theorem State.setLife_program (l : Life) : (s.setLife l).program = s.program := rfl
@[simp] theorem State.setLife_pc (l : Life) : (s.setLife l).pc = s.pc := rfl
@[simp] theorem State.setLife_result (l : Life) : (s.setLife l).result = s.result := rfl
@[simp] theorem State.setLife_answers (l : Life) : (s.setLife l).answers = s.answers := rfl
@[simp] theorem State.setLife_transport (l : Life) : (s.setLife l).transport = s.transport := rfl
@[simp] theorem State.setLife_draws (l : Life) : (s.setLife l).draws = s.draws := rfl

/-! `State.setAnswers` -/

@[simp] theorem State.setAnswers_life (rest : List Answer) : (s.setAnswers rest).life = s.life := rfl
@[simp] theorem State.setAnswers_mode (rest : List Answer) : (s.setAnswers rest).mode = s.mode := rfl
@[simp] theorem State.setAnswers_vref (rest : List Answer) : (s.setAnswers rest).vref = s.vref := rfl
@[simp] theorem State.setAnswers_feature (rest : List Answer) : (s.setAnswers rest).feature = s.feature := rfl
@[simp] theorem State.setAnswers_cs (rest : List Answer) : (s.setAnswers rest).cs = s.cs := rfl
@[simp] theorem State.setAnswers_trace (rest : List Answer) : (s.setAnswers rest).trace = s.trace := rfl
@[simp] theorem State.setAnswers_busId (rest : List Answer) : (s.setAnswers rest).busId = s.busId := rfl
@[simp] theorem State.setAnswers_deviceId (rest : List Answer) : (s.setAnswers rest).deviceId = s.deviceId := rfl
@[simp] theorem State.setAnswers_csLine (rest : List Answer) : (s.setAnswers rest).csLine = s.csLine := rfl
@[simp] theorem State.setAnswers_spiHz (rest : List Answer) : (s.setAnswers rest).spiHz = s.spiHz := rfl
@[simp] theorem State.setAnswers_cfg (rest : List Answer) : (s.setAnswers rest).cfg = s.cfg := rfl
@[simp] theorem State.setAnswers_program (rest : List Answer) : (s.setAnswers rest).program = s.program := rfl
@[simp] theorem State.setAnswers_pc (rest : List Answer) : (s.setAnswers rest).pc = s.pc := rfl
@[simp] theorem State.setAnswers_result (rest : List Answer) : (s.setAnswers rest).result = s.result := rfl
@[simp] theorem State.setAnswers_answers (rest : List Answer) : (s.setAnswers rest).answers = rest := rfl
@[simp] theorem State.setAnswers_transport (rest : List Answer) : (s.setAnswers rest).transport = s.transport := rfl
@[simp] theorem State.setAnswers_draws (rest : List Answer) : (s.setAnswers rest).draws = s.draws := rfl

/-! `State.countDraw` -/

@[simp] theorem State.countDraw_life : s.countDraw.life = s.life := rfl
@[simp] theorem State.countDraw_mode : s.countDraw.mode = s.mode := rfl
@[simp] theorem State.countDraw_vref : s.countDraw.vref = s.vref := rfl
@[simp] theorem State.countDraw_feature : s.countDraw.feature = s.feature := rfl
@[simp] theorem State.countDraw_cs : s.countDraw.cs = s.cs := rfl
@[simp] theorem State.countDraw_trace : s.countDraw.trace = s.trace := rfl
@[simp] theorem State.countDraw_busId : s.countDraw.busId = s.busId := rfl
@[simp] theorem State.countDraw_deviceId : s.countDraw.deviceId = s.deviceId := rfl
@[simp] theorem State.countDraw_csLine : s.countDraw.csLine = s.csLine := rfl
@[simp] theorem State.countDraw_spiHz : s.countDraw.spiHz = s.spiHz := rfl
@[simp] theorem State.countDraw_cfg : s.countDraw.cfg = s.cfg := rfl
@[simp] theorem State.countDraw_program : s.countDraw.program = s.program := rfl
@[simp] theorem State.countDraw_pc : s.countDraw.pc = s.pc := rfl
@[simp] theorem State.countDraw_result : s.countDraw.result = s.result := rfl
@[simp] theorem State.countDraw_answers : s.countDraw.answers = s.answers := rfl
@[simp] theorem State.countDraw_transport : s.countDraw.transport = s.transport := rfl
@[simp] theorem State.countDraw_draws : s.countDraw.draws = s.draws + 1 := rfl

/-! `State.returnOk` -/

@[simp] theorem State.returnOk_life (v : Value) : (s.returnOk v).life = s.life := rfl
@[simp] theorem State.returnOk_mode (v : Value) : (s.returnOk v).mode = s.mode := rfl
@[simp] theorem State.returnOk_vref (v : Value) : (s.returnOk v).vref = s.vref := rfl
@[simp] theorem State.returnOk_feature (v : Value) : (s.returnOk v).feature = s.feature := rfl
@[simp] theorem State.returnOk_cs (v : Value) : (s.returnOk v).cs = s.cs := rfl
@[simp] theorem State.returnOk_trace (v : Value) : (s.returnOk v).trace = s.trace := rfl
@[simp] theorem State.returnOk_busId (v : Value) : (s.returnOk v).busId = s.busId := rfl
@[simp] theorem State.returnOk_deviceId (v : Value) : (s.returnOk v).deviceId = s.deviceId := rfl
@[simp] theorem State.returnOk_csLine (v : Value) : (s.returnOk v).csLine = s.csLine := rfl
@[simp] theorem State.returnOk_spiHz (v : Value) : (s.returnOk v).spiHz = s.spiHz := rfl
@[simp] theorem State.returnOk_cfg (v : Value) : (s.returnOk v).cfg = s.cfg := rfl
@[simp] theorem State.returnOk_program (v : Value) : (s.returnOk v).program = s.program := rfl
@[simp] theorem State.returnOk_pc (v : Value) : (s.returnOk v).pc = s.pc + 1 := rfl
@[simp] theorem State.returnOk_result (v : Value) : (s.returnOk v).result = some (.ok v) := rfl
@[simp] theorem State.returnOk_answers (v : Value) : (s.returnOk v).answers = s.answers := rfl
@[simp] theorem State.returnOk_transport (v : Value) : (s.returnOk v).transport = s.transport := rfl
@[simp] theorem State.returnOk_draws (v : Value) : (s.returnOk v).draws = s.draws := rfl

/-! `State.returnErr` -/

@[simp] theorem State.returnErr_life (e : Err) : (s.returnErr e).life = s.life := rfl
@[simp] theorem State.returnErr_mode (e : Err) : (s.returnErr e).mode = s.mode := rfl
@[simp] theorem State.returnErr_vref (e : Err) : (s.returnErr e).vref = s.vref := rfl
@[simp] theorem State.returnErr_feature (e : Err) : (s.returnErr e).feature = s.feature := rfl
@[simp] theorem State.returnErr_cs (e : Err) : (s.returnErr e).cs = s.cs := rfl
@[simp] theorem State.returnErr_trace (e : Err) : (s.returnErr e).trace = s.trace := rfl
@[simp] theorem State.returnErr_busId (e : Err) : (s.returnErr e).busId = s.busId := rfl
@[simp] theorem State.returnErr_deviceId (e : Err) : (s.returnErr e).deviceId = s.deviceId := rfl
@[simp] theorem State.returnErr_csLine (e : Err) : (s.returnErr e).csLine = s.csLine := rfl
@[simp] theorem State.returnErr_spiHz (e : Err) : (s.returnErr e).spiHz = s.spiHz := rfl
@[simp] theorem State.returnErr_cfg (e : Err) : (s.returnErr e).cfg = s.cfg := rfl
@[simp] theorem State.returnErr_program (e : Err) : (s.returnErr e).program = s.program := rfl
@[simp] theorem State.returnErr_pc (e : Err) : (s.returnErr e).pc = s.pc := rfl
@[simp] theorem State.returnErr_result (e : Err) : (s.returnErr e).result = some (.err e) := rfl
@[simp] theorem State.returnErr_answers (e : Err) : (s.returnErr e).answers = s.answers := rfl
@[simp] theorem State.returnErr_transport (e : Err) : (s.returnErr e).transport = s.transport := rfl
@[simp] theorem State.returnErr_draws (e : Err) : (s.returnErr e).draws = s.draws := rfl

/-! `State.load` -/

@[simp] theorem State.load_life (p : List HostCall) : (s.load p).life = s.life := rfl
@[simp] theorem State.load_mode (p : List HostCall) : (s.load p).mode = s.mode := rfl
@[simp] theorem State.load_vref (p : List HostCall) : (s.load p).vref = s.vref := rfl
@[simp] theorem State.load_feature (p : List HostCall) : (s.load p).feature = s.feature := rfl
@[simp] theorem State.load_cs (p : List HostCall) : (s.load p).cs = s.cs := rfl
@[simp] theorem State.load_trace (p : List HostCall) : (s.load p).trace = s.trace := rfl
@[simp] theorem State.load_busId (p : List HostCall) : (s.load p).busId = s.busId := rfl
@[simp] theorem State.load_deviceId (p : List HostCall) : (s.load p).deviceId = s.deviceId := rfl
@[simp] theorem State.load_csLine (p : List HostCall) : (s.load p).csLine = s.csLine := rfl
@[simp] theorem State.load_spiHz (p : List HostCall) : (s.load p).spiHz = s.spiHz := rfl
@[simp] theorem State.load_cfg (p : List HostCall) : (s.load p).cfg = s.cfg := rfl
@[simp] theorem State.load_program (p : List HostCall) : (s.load p).program = p := rfl
@[simp] theorem State.load_pc (p : List HostCall) : (s.load p).pc = 0 := rfl
@[simp] theorem State.load_result (p : List HostCall) : (s.load p).result = none := rfl
@[simp] theorem State.load_answers (p : List HostCall) : (s.load p).answers = s.answers := rfl
@[simp] theorem State.load_transport (p : List HostCall) : (s.load p).transport = s.transport := rfl
@[simp] theorem State.load_draws (p : List HostCall) : (s.load p).draws = s.draws := rfl

/-! `State.construct` -/

@[simp] theorem State.construct_life (b d c v z : Rat) : (s.construct b d c v z).life = .opened := rfl
@[simp] theorem State.construct_mode (b d c v z : Rat) : (s.construct b d c v z).mode = .idle := rfl
@[simp] theorem State.construct_vref (b d c v z : Rat) : (s.construct b d c v z).vref = v := rfl
@[simp] theorem State.construct_feature (b d c v z : Rat) : (s.construct b d c v z).feature = s.cfg.featureInit := rfl
@[simp] theorem State.construct_cs (b d c v z : Rat) : (s.construct b d c v z).cs = .deassert := rfl
@[simp] theorem State.construct_trace (b d c v z : Rat) : (s.construct b d c v z).trace = s.trace := rfl
@[simp] theorem State.construct_busId (b d c v z : Rat) : (s.construct b d c v z).busId = b := rfl
@[simp] theorem State.construct_deviceId (b d c v z : Rat) : (s.construct b d c v z).deviceId = d := rfl
@[simp] theorem State.construct_csLine (b d c v z : Rat) : (s.construct b d c v z).csLine = c := rfl
@[simp] theorem State.construct_spiHz (b d c v z : Rat) : (s.construct b d c v z).spiHz = z := rfl
@[simp] theorem State.construct_cfg (b d c v z : Rat) : (s.construct b d c v z).cfg = s.cfg := rfl
@[simp] theorem State.construct_program (b d c v z : Rat) : (s.construct b d c v z).program = s.program := rfl
@[simp] theorem State.construct_pc (b d c v z : Rat) : (s.construct b d c v z).pc = s.pc := rfl
@[simp] theorem State.construct_result (b d c v z : Rat) : (s.construct b d c v z).result = s.result := rfl
@[simp] theorem State.construct_answers (b d c v z : Rat) : (s.construct b d c v z).answers = s.answers := rfl
@[simp] theorem State.construct_transport (b d c v z : Rat) : (s.construct b d c v z).transport = s.transport := rfl
@[simp] theorem State.construct_draws (b d c v z : Rat) : (s.construct b d c v z).draws = s.draws := rfl

end Sys2Proof.Machine
end

