-- ==== Sys2Proof/Laws/Ops.lean ====
section
/-! SUPPORT. What each shared operation can do, said once: the parts of an operation in progress, the
transport calls, and `Moved`, the form of every state a transport primitive leaves. -/

namespace Sys2Proof.Machine

/-! ### Operations in progress -/

section
variable {α β : Type} {m : Attempt α} {k : α → State → Attempt β} {b : β} {e : Err} {s t : State}

@[simp] theorem Attempt.done_andThen (a : α) :
    (Attempt.done a s).andThen k = k a s := rfl

@[simp] theorem Attempt.raised_andThen :
    (Attempt.raised e s : Attempt α).andThen k = .raised e s := rfl

@[simp] theorem Attempt.hung_andThen : (Attempt.hung : Attempt α).andThen k = .hung := rfl

theorem Attempt.andThen_eq_done :
    m.andThen k = .done b t ↔ ∃ a u, m = .done a u ∧ k a u = .done b t := by
  cases m <;> simp [Attempt.andThen]

theorem Attempt.andThen_eq_raised :
    m.andThen k = .raised e t ↔ m = .raised e t ∨ ∃ a u, m = .done a u ∧ k a u = .raised e t := by
  cases m <;> simp [Attempt.andThen]

theorem Attempt.andThen_eq_hung :
    m.andThen k = .hung ↔ m = .hung ∨ ∃ a u, m = .done a u ∧ k a u = .hung := by
  cases m <;> simp [Attempt.andThen]

@[simp] theorem Attempt.finish_done (w : α → Value) (a : α) :
    (Attempt.done a s).finish w = .next (s.returnOk (w a)) := rfl

@[simp] theorem Attempt.finish_raised (w : α → Value) :
    (Attempt.raised e s : Attempt α).finish w = .next (s.returnErr e) := rfl

@[simp] theorem Attempt.finish_hung (w : α → Value) :
    (Attempt.hung : Attempt α).finish w = .fault .transportHang := rfl

theorem Attempt.finish_eq_next {w : α → Value} :
    m.finish w = .next t ↔ (∃ a u, m = .done a u ∧ t = u.returnOk (w a)) ∨
      ∃ e u, m = .raised e u ∧ t = u.returnErr e := by
  cases m <;> simp [Attempt.finish, eq_comm]

theorem Attempt.finish_eq_fault {w : α → Value} {r : Fault} :
    m.finish w = .fault r ↔ m = .hung ∧ r = .transportHang := by
  cases m <;> simp [Attempt.finish, eq_comm]

theorem Attempt.finish_ne_refused {w : α → Value} {r : Refusal} : m.finish w ≠ .refused r := by
  cases m <;> simp [Attempt.finish]

theorem whenOpen_eq_next {op : Host.Outcome State Fault Refusal} :
    whenOpen s op = .next t ↔ s.life = .opened ∧ op = .next t := by
  unfold whenOpen
  cases s.life <;> simp

theorem whenOpen_opened {op : Host.Outcome State Fault Refusal} (h : s.life = .opened) :
    whenOpen s op = op := by simp [whenOpen, h]

theorem whenOpen_closed {op : Host.Outcome State Fault Refusal} (h : s.life = .closed) :
    whenOpen s op = .refused .closedInstance := by simp [whenOpen, h]

end

/-! ### The form of a state that transport primitives leave -/

/-- `as` is what is left of the answers `bs` after some were drawn, none of which hangs. -/
def Drawn (bs as : List Answer) : Prop := ∃ used, bs = used ++ as ∧ .hangs ∉ used

theorem Drawn.refl (as : List Answer) : Drawn as as := ⟨[], rfl, by simp⟩

theorem Drawn.trans {as bs cs : List Answer} (h : Drawn bs as) (h' : Drawn cs bs) : Drawn cs as := by
  obtain ⟨u, rfl, hu⟩ := h
  obtain ⟨v, rfl, hv⟩ := h'
  exact ⟨v ++ u, by simp, by simp [hu, hv]⟩

theorem Drawn.suffix {as bs : List Answer} (h : Drawn bs as) : as <:+ bs := by
  obtain ⟨u, rfl, -⟩ := h
  exact List.suffix_append _ _

/-- `t` is `s` with the events `es` appended, the given mode and chip-select level, and some answers
drawn; every other field is `s`'s. -/
def Moved (s : State) (es : List Event) (m : Mode) (l : Cs) (t : State) : Prop :=
  ∃ as n, Drawn s.answers as ∧ s.draws ≤ n ∧
    t = { s with trace := s.trace ++ es, mode := m, cs := l, answers := as, draws := n }

section
variable {s t u : State} {es fs : List Event} {m m' : Mode} {l l' : Cs}

theorem Moved.refl : Moved s [] s.mode s.cs s :=
  ⟨s.answers, s.draws, Drawn.refl _, Nat.le_refl _, by simp⟩

theorem Moved.trans (h : Moved s es m l t) (h' : Moved t fs m' l' u) :
    Moved s (es ++ fs) m' l' u := by
  obtain ⟨as, n, ha, hn, rfl⟩ := h
  obtain ⟨bs, k, hb, hk, rfl⟩ := h'
  exact ⟨bs, k, hb.trans ha, Nat.le_trans hn hk, by simp [List.append_assoc]⟩

theorem Moved.setMode (h : Moved s es m l t) (m' : Mode) : Moved s es m' l (t.setMode m') := by
  obtain ⟨as, n, ha, hn, rfl⟩ := h
  exact ⟨as, n, ha, hn, rfl⟩

theorem Moved.setCs (h : Moved s es m l t) (l' : Cs) : Moved s es m l' (t.setCs l') := by
  obtain ⟨as, n, ha, hn, rfl⟩ := h
  exact ⟨as, n, ha, hn, rfl⟩

theorem Moved.log (h : Moved s es m l t) (e : Event) : Moved s (es ++ [e]) m l (t.log e) := by
  obtain ⟨as, n, ha, hn, rfl⟩ := h
  exact ⟨as, n, ha, hn, by simp [State.log, List.append_assoc]⟩

theorem Moved.trace (h : Moved s es m l t) : t.trace = s.trace ++ es := by
  obtain ⟨as, n, -, -, rfl⟩ := h; rfl

theorem Moved.mode (h : Moved s es m l t) : t.mode = m := by
  obtain ⟨as, n, -, -, rfl⟩ := h; rfl

theorem Moved.cs (h : Moved s es m l t) : t.cs = l := by
  obtain ⟨as, n, -, -, rfl⟩ := h; rfl

theorem Moved.cfg (h : Moved s es m l t) : t.cfg = s.cfg := by
  obtain ⟨as, n, -, -, rfl⟩ := h; rfl

theorem Moved.life (h : Moved s es m l t) : t.life = s.life := by
  obtain ⟨as, n, -, -, rfl⟩ := h; rfl

theorem Moved.pc (h : Moved s es m l t) : t.pc = s.pc := by
  obtain ⟨as, n, -, -, rfl⟩ := h; rfl

theorem Moved.drawn (h : Moved s es m l t) : Drawn s.answers t.answers := by
  obtain ⟨as, n, ha, -, rfl⟩ := h; exact ha

theorem Moved.answers (h : Moved s es m l t) : t.answers <:+ s.answers := h.drawn.suffix

/-- The fields no transport primitive writes. -/
theorem Moved.frame (h : Moved s es m l t) :
    t.life = s.life ∧ t.vref = s.vref ∧ t.feature = s.feature ∧ t.busId = s.busId ∧
      t.deviceId = s.deviceId ∧ t.csLine = s.csLine ∧ t.spiHz = s.spiHz ∧ t.cfg = s.cfg ∧
      t.program = s.program ∧ t.pc = s.pc ∧ t.result = s.result ∧ t.transport = s.transport := by
  obtain ⟨as, n, -, -, rfl⟩ := h
  simp

end

/-! ### The transport -/

section
variable {s t : State} {c : TransportCall} {bs : List Byte} {e : Err} {rest : List Answer}

/-- The state a draw leaves, where the answer drawn is no hang. -/
theorem draw_moved {a : Answer} (h : s.draw c = (a, t)) (ha : a ≠ .hangs) :
    Moved s [] s.mode s.cs t := by
  unfold State.draw at h
  cases hs : s.answers with
  | nil =>
    simp only [hs, Prod.mk.injEq] at h
    obtain ⟨-, rfl⟩ := h
    exact ⟨[], s.draws + 1, hs ▸ Drawn.refl _, Nat.le_add_right _ _, by simp [State.countDraw, hs]⟩
  | cons b as =>
    simp only [hs, Prod.mk.injEq] at h
    obtain ⟨rfl, rfl⟩ := h
    exact ⟨as, s.draws, ⟨[b], by simp [hs], by simpa using ha.symm⟩, Nat.le_refl _,
      by simp [State.setAnswers]⟩

/-- A call that returns appends its event and writes nothing else. -/
theorem callTransport_done (h : callTransport c s = .done bs t) :
    c.accepts bs = true ∧ Moved s [c.event bs] s.mode s.cs t := by
  unfold callTransport at h
  split at h <;> rename_i heq
  · cases h
  · cases h
  · split at h <;> rename_i ha <;> cases h
    exact ⟨ha, (draw_moved heq (by simp)).log _⟩

/-- A call that fails appends its event with the marker, raises the error that names it, and writes
`cs` and nothing else. -/
theorem callTransport_raised (h : callTransport c s = .raised e t) :
    e = .transport c.failed ∧ Moved s [c.failEvent] s.mode (c.csAfterFail s.cs) t := by
  unfold callTransport at h
  split at h <;> rename_i heq
  · cases h
  · cases h
    have hd := draw_moved heq (by simp)
    exact ⟨rfl, by rw [hd.cs]; exact (hd.log _).setCs _⟩
  · split at h <;> cases h
    have hd := draw_moved heq (by simp)
    exact ⟨rfl, by rw [hd.cs]; exact (hd.log _).setCs _⟩

theorem callTransport_returns (h : s.answers = .returns bs :: rest) (ha : c.accepts bs = true) :
    callTransport c s = .done bs ((s.setAnswers rest).log (c.event bs)) := by
  simp [callTransport, State.draw, h, ha]

theorem callTransport_fails (h : s.answers = .fails :: rest) :
    callTransport c s = .raised (.transport c.failed)
      (((s.setAnswers rest).log c.failEvent).setCs (c.csAfterFail s.cs)) := by
  simp [callTransport, State.draw, h]

theorem callTransport_mismatch (h : s.answers = .returns bs :: rest) (ha : c.accepts bs = false) :
    callTransport c s = .raised (.transport c.failed)
      (((s.setAnswers rest).log c.failEvent).setCs (c.csAfterFail s.cs)) := by
  simp [callTransport, State.draw, h, ha]

theorem callTransport_hangs (h : s.answers = .hangs :: rest) : callTransport c s = .hung := by
  simp [callTransport, State.draw, h]

/-- What may hang after transport activity could hang before it. -/
theorem Moved.mayHang {es : List Event} {m : Mode} {l : Cs} (h : Moved s es m l t)
    (ht : MayHang t) : MayHang s := by
  obtain ⟨as, n, ha, -, rfl⟩ := h
  exact ht.imp (ha.suffix.mem ·) id

/-- A call that hangs drew a hang, from the queue or from the free oracle. -/
theorem callTransport_hung (h : callTransport c s = .hung) : MayHang s := by
  unfold callTransport State.draw at h
  cases ha : s.answers with
  | nil =>
    simp only [ha] at h
    split at h <;> rename_i heq
    · exact .inr ⟨_, _, _, (Prod.mk.inj heq).1⟩
    · cases h
    · split at h <;> cases h
  | cons a rest =>
    simp only [ha] at h
    cases a with
    | hangs => exact .inl (by simp [ha])
    | fails => cases h
    | returns bs => simp only at h; split at h <;> cases h

/-- Answers that serve a call return to it, and serve what follows. -/
theorem serves_cons {n : Nat} {ns : List Nat} {as : List Answer} (h : serves (n :: ns) as = true) :
    ∃ bytes rest, as = .returns bytes :: rest ∧ (n = 0 ∨ bytes.length = n) ∧
      serves ns rest = true := by
  match as, h with
  | .returns bytes :: rest, h => exact ⟨bytes, rest, rfl, by simpa [serves] using h⟩

/-- The answers left after some serve a list of calls serve the calls that follow. -/
theorem serves_append {ns ms : List Nat} {as : List Answer} :
    serves (ns ++ ms) as = (serves ns as && serves ms (as.drop ns.length)) := by
  induction ns generalizing as with
  | nil => simp [serves]
  | cons n ns ih =>
    match as with
    | .returns bytes :: rest => simp [serves, ih, Bool.and_assoc]
    | .fails :: _ | .hangs :: _ | [] => simp [serves]

/-- The value of a two-byte echo (20_memory.md R53): `(hi << 8) | lo`. -/
theorem msbFirst_toNat (hi lo : Byte) : (msbFirst hi lo).toNat = 256 * hi.toNat + lo.toNat := by
  have h1 := hi.isLt
  have h2 := lo.isLt
  simp only [msbFirst, BitVec.toNat_or, BitVec.toNat_shiftLeft, BitVec.toNat_setWidth]
  rw [Nat.mod_eq_of_lt (show hi.toNat < 2 ^ 16 by omega),
    Nat.mod_eq_of_lt (show lo.toNat < 2 ^ 16 by omega), Nat.shiftLeft_eq,
    Nat.mod_eq_of_lt (by omega), Nat.mul_comm]
  exact (Nat.two_pow_add_eq_or_of_lt (i := 8) (b := lo.toNat) (by omega) hi.toNat).symm

/-! ### Chip select and exchange -/

variable {line : Rat} {level : Level} {out : List Byte}

theorem driveCsLine_done (h : driveCsLine line level s = .done () t) :
    Moved s [.cs level .done] s.mode level.toCs t := by
  obtain ⟨bs, u, hu, hk⟩ := Attempt.andThen_eq_done.1 h
  cases hk
  exact (callTransport_done hu).2.setCs _

theorem driveCsLine_raised (h : driveCsLine line level s = .raised e t) :
    e = .transport .cs ∧ Moved s [.cs level .fail] s.mode .unknown t := by
  rcases Attempt.andThen_eq_raised.1 h with h | ⟨_, _, _, h⟩
  · exact callTransport_raised h
  · cases h

theorem driveCs_done (h : driveCs level s = .done () t) :
    Moved s [.cs level .done] s.mode level.toCs t := driveCsLine_done h

theorem driveCs_raised (h : driveCs level s = .raised e t) :
    e = .transport .cs ∧ Moved s [.cs level .fail] s.mode .unknown t := driveCsLine_raised h

theorem exchange_done (h : exchange out s = .done bs t) :
    bs.length = out.length ∧ Moved s [.xfer out (some bs)] s.mode s.cs t := by
  have := callTransport_done h
  simpa [TransportCall.accepts, TransportCall.event] using this

theorem exchange_raised (h : exchange out s = .raised e t) :
    e = .transport (.exchange out) ∧ Moved s [.xfer out none] s.mode .unknown t :=
  callTransport_raised h

theorem driveCsLine_returns (h : s.answers = .returns bs :: rest) :
    driveCsLine line level s =
      .done () (((s.setAnswers rest).log (.cs level .done)).setCs level.toCs) := by
  rw [driveCsLine, callTransport_returns h rfl]
  rfl

theorem driveCsLine_fails (h : s.answers = .fails :: rest) :
    driveCsLine line level s =
      .raised (.transport .cs) (((s.setAnswers rest).log (.cs level .fail)).setCs .unknown) := by
  simp [driveCsLine, callTransport_fails h, TransportCall.failed, TransportCall.failEvent,
    TransportCall.csAfterFail]

theorem driveCsLine_hangs (h : s.answers = .hangs :: rest) : driveCsLine line level s = .hung := by
  simp [driveCsLine, callTransport_hangs h]

theorem driveCs_returns (h : s.answers = .returns bs :: rest) :
    driveCs level s = .done () (((s.setAnswers rest).log (.cs level .done)).setCs level.toCs) :=
  driveCsLine_returns h

theorem driveCs_fails (h : s.answers = .fails :: rest) :
    driveCs level s =
      .raised (.transport .cs) (((s.setAnswers rest).log (.cs level .fail)).setCs .unknown) :=
  driveCsLine_fails h

theorem driveCs_hangs (h : s.answers = .hangs :: rest) : driveCs level s = .hung :=
  driveCsLine_hangs h

theorem exchange_returns (h : s.answers = .returns bs :: rest) (hl : bs.length = out.length) :
    exchange out s = .done bs ((s.setAnswers rest).log (.xfer out (some bs))) :=
  callTransport_returns h (by simp [TransportCall.accepts, hl])

theorem exchange_fails (h : s.answers = .fails :: rest) :
    exchange out s = .raised (.transport (.exchange out))
      (((s.setAnswers rest).log (.xfer out none)).setCs .unknown) :=
  callTransport_fails h

theorem exchange_mismatch (h : s.answers = .returns bs :: rest) (hl : bs.length ≠ out.length) :
    exchange out s = .raised (.transport (.exchange out))
      (((s.setAnswers rest).log (.xfer out none)).setCs .unknown) :=
  callTransport_mismatch h (by simp [TransportCall.accepts, hl])

theorem exchange_hangs (h : s.answers = .hangs :: rest) : exchange out s = .hung :=
  callTransport_hangs h

end

end Sys2Proof.Machine
end

