-- ==== Sys2Proof/Laws/Transactions.lean ====
section
/-! SUPPORT. What each transaction can do: the register access, the command, a list of register
writes, `OPEN` and `CLOSE`.  `_done` and `_raised` lemmas say everything a completed or aborted
transaction leaves; `_served` lemmas give the completed transaction from the answers that serve it. -/

namespace Sys2Proof.Machine

variable {s t : State} {e : Err}

/-! ### A chip-select window around an exchange -/

/-- The prefixes of a register transaction that end in a failed call (60_exceptions.md R216): the
event list and the failed call. -/
inductive RegisterAbort (frame : List Byte) : List Event → FailedCall → Prop where
  | onAssert : RegisterAbort frame [.cs .assert .fail] .cs
  | onExchange : RegisterAbort frame [.cs .assert .done, .xfer frame none] (.exchange frame)
  | onDeassert (reply : List Byte) (h : reply.length = frame.length) :
      RegisterAbort frame [.cs .assert .done, .xfer frame (some reply), .cs .deassert .fail] .cs

/-- An aborted register access ends with the failed call's event, and waits nowhere. -/
theorem RegisterAbort.last {frame : List Byte} {es : List Event} {c : FailedCall}
    (h : RegisterAbort frame es c) :
    ∃ fs f, es = fs ++ [f] ∧ f.failedCall = some c ∧ delayCount fs = 0 ∧ delayCount es = 0 ∧
      (∀ x ∈ fs, x.isFail = false) ∧ (outBytes es = [] ∨ outBytes es = [frame]) := by
  cases h
  · exact ⟨[], _, rfl, rfl, rfl, rfl, by simp, .inl rfl⟩
  · exact ⟨[_], _, rfl, rfl, rfl, rfl, by simp [Event.isFail], .inr rfl⟩
  · exact ⟨[_, _], _, rfl, rfl, rfl, rfl, by simp [Event.isFail], .inr rfl⟩

theorem regTxn_done {frame : List Byte} {b : Byte} (h : regTxn frame s = .done b t) :
    ∃ reply : List Byte, reply.length = frame.length ∧ b = reply.getD 2 0 ∧
      Moved s (registerEvents frame reply) .program .deassert t := by
  obtain ⟨_, s1, h1, h⟩ := Attempt.andThen_eq_done.1 h
  obtain ⟨reply, s2, h2, h⟩ := Attempt.andThen_eq_done.1 h
  obtain ⟨_, s3, h3, h⟩ := Attempt.andThen_eq_done.1 h
  cases h
  obtain ⟨hl, m2⟩ := exchange_done h2
  exact ⟨reply, hl, rfl, (((driveCs_done h1).trans m2).trans (driveCs_done h3)).setMode _⟩

theorem regTxn_raised {frame : List Byte} (h : regTxn frame s = .raised e t) :
    ∃ es call, RegisterAbort frame es call ∧ e = .transport call ∧ Moved s es s.mode .unknown t := by
  rcases Attempt.andThen_eq_raised.1 h with h1 | ⟨_, s1, h1, h⟩
  · exact ⟨_, _, .onAssert, driveCs_raised h1⟩
  have m1 := driveCs_done h1
  rcases Attempt.andThen_eq_raised.1 h with h2 | ⟨reply, s2, h2, h⟩
  · obtain ⟨he, m2⟩ := exchange_raised h2
    exact ⟨_, _, .onExchange, he, m1.mode ▸ m1.trans m2⟩
  obtain ⟨hl, m2⟩ := exchange_done h2
  rcases Attempt.andThen_eq_raised.1 h with h3 | ⟨_, s3, h3, h⟩
  · obtain ⟨he, m3⟩ := driveCs_raised h3
    refine ⟨_, _, .onDeassert reply hl, he, ?_⟩
    have := (m1.trans m2).trans m3
    rwa [m2.mode, m1.mode] at this
  · cases h

theorem regTxn_served {frame : List Byte} {r : Served} {rest : List Answer}
    (h : s.answers = r.answers ++ rest) (hl : r.onExchange.length = frame.length) :
    regTxn frame s = .done (r.onExchange.getD 2 0)
      { s with trace := s.trace ++ registerEvents frame r.onExchange, mode := .program,
               cs := .deassert, answers := rest } := by
  have h1 : s.answers = .returns r.onAssert :: .returns r.onExchange ::
      .returns r.onDeassert :: rest := by simpa [Served.answers] using h
  unfold regTxn
  rw [driveCs_returns h1]
  simp only [Attempt.done_andThen]
  rw [exchange_returns (rest := .returns r.onDeassert :: rest) rfl hl]
  simp only [Attempt.done_andThen]
  rw [driveCs_returns (rest := rest) rfl]
  simp [registerEvents, State.log, State.setCs, State.setMode, State.setAnswers, Level.toCs]

/-! ### Register writes one after another -/

theorem writeReg_done {addr : Nat} {v b : Byte} (h : writeReg addr v s = .done b t) :
    registerOk s.cfg addr .write = true ∧ ∃ reply : List Byte, reply.length = 3 ∧
      b = reply.getD 2 0 ∧
      Moved s (registerEvents (writeFrame addr v) reply) .program .deassert t := by
  unfold writeReg at h
  split at h <;> rename_i hw
  · exact ⟨hw, regTxn_done h⟩
  · cases h

theorem writeReg_raised {addr : Nat} {v : Byte} (h : writeReg addr v s = .raised e t) :
    (registerOk s.cfg addr .write = false ∧ e = .invalidRegister addr ∧ t = s) ∨
    (registerOk s.cfg addr .write = true ∧ ∃ es call, RegisterAbort (writeFrame addr v) es call ∧
      e = .transport call ∧ Moved s es s.mode .unknown t) := by
  unfold writeReg at h
  split at h <;> rename_i hw
  · exact .inr ⟨hw, regTxn_raised h⟩
  · cases h
    exact .inl ⟨hw, rfl, rfl⟩

theorem readReg_done {addr : Nat} {b : Byte} (h : readReg addr s = .done b t) :
    registerOk s.cfg addr .read = true ∧ ∃ reply : List Byte, reply.length = 3 ∧
      b = reply.getD 2 0 ∧
      Moved s (registerEvents (readFrame addr) reply) .program .deassert t := by
  unfold readReg at h
  split at h <;> rename_i hr
  · exact ⟨hr, regTxn_done h⟩
  · cases h

theorem readReg_raised {addr : Nat} (h : readReg addr s = .raised e t) :
    (registerOk s.cfg addr .read = false ∧ e = .invalidRegister addr ∧ t = s) ∨
    (registerOk s.cfg addr .read = true ∧ ∃ es call, RegisterAbort (readFrame addr) es call ∧
      e = .transport call ∧ Moved s es s.mode .unknown t) := by
  unfold readReg at h
  split at h <;> rename_i hr
  · exact .inr ⟨hr, regTxn_raised h⟩
  · cases h
    exact .inl ⟨hr, rfl, rfl⟩

/-- The mode and the chip-select level after a list of completed register writes. -/
theorem writeRegs_done {ws : List (Nat × Byte)} (h : writeRegs ws s = .done () t) :
    allWritable s.cfg ws = true ∧ ∃ rs : List Served, rs.length = ws.length ∧
      (∀ r ∈ rs, r.onExchange.length = 3) ∧
      Moved s (writeEvents ws rs) (if ws = [] then s.mode else .program)
        (if ws = [] then s.cs else .deassert) t := by
  induction ws generalizing s with
  | nil =>
    cases h
    exact ⟨rfl, [], rfl, by simp, by simpa [writeEvents] using Moved.refl⟩
  | cons w ws ih =>
    obtain ⟨b, u, h1, h2⟩ := Attempt.andThen_eq_done.1 h
    obtain ⟨hw, reply, hl, -, m1⟩ := writeReg_done h1
    obtain ⟨hall, rs, hlen, hrs, m2⟩ := ih h2
    have m := m1.trans m2
    rw [m1.mode, m1.cs, ite_self, ite_self] at m
    refine ⟨?_, ⟨[], reply, []⟩ :: rs, by simp [hlen], ?_, by simpa [writeEvents] using m⟩
    · rw [m1.cfg] at hall
      simpa [allWritable, hw] using hall
    · simpa [hl] using hrs

/-- A list of register writes ends in an error after `k` completed writes, in the write that follows. -/
theorem writeRegs_raised {ws : List (Nat × Byte)} (h : writeRegs ws s = .raised e t) :
    ∃ (done : List (Nat × Byte)) (w : Nat × Byte) (rest : List (Nat × Byte)) (u : State),
      ws = done ++ w :: rest ∧ writeRegs done s = .done () u ∧ writeReg w.1 w.2 u = .raised e t := by
  induction ws generalizing s with
  | nil => cases h
  | cons w ws ih =>
    rcases Attempt.andThen_eq_raised.1 h with h1 | ⟨b, v, h1, h2⟩
    · exact ⟨[], w, ws, s, rfl, rfl, h1⟩
    · obtain ⟨done, w', rest, u, rfl, hd, hr⟩ := ih h2
      exact ⟨w :: done, w', rest, u, rfl, by simp [writeRegs, h1, hd], hr⟩

/-- A list of register writes ends in an error in write `k`, after `k` completed ones. -/
theorem writeRegs_raised_at {ws : List (Nat × Byte)} (h : writeRegs ws s = .raised e t) :
    ∃ k w rs, ws[k]? = some w ∧ rs.length = k ∧ (∀ r ∈ rs, r.onExchange.length = 3) ∧
      allWritable s.cfg (ws.take k) = true ∧
      ∃ u, Moved s (writeEvents (ws.take k) rs) (if k = 0 then s.mode else .program)
        (if k = 0 then s.cs else .deassert) u ∧ writeReg w.1 w.2 u = .raised e t := by
  obtain ⟨done, w, rest, u, rfl, h1, h2⟩ := writeRegs_raised h
  obtain ⟨hw, rs, hl, hr, m⟩ := writeRegs_done h1
  refine ⟨done.length, w, rs, by simp, hl, hr, by simpa using hw, u, ?_, h2⟩
  simpa using m

/-- Where every register admits its write, a list of register writes ends in an error only by a failed
transport call, in write `k` after `k` completed ones (60_exceptions.md R217). -/
theorem writeRegs_aborted {ws : List (Nat × Byte)} (hw : allWritable s.cfg ws = true)
    (h : writeRegs ws s = .raised e t) :
    ∃ k w rs es call, ws[k]? = some w ∧ rs.length = k ∧ (∀ r ∈ rs, r.onExchange.length = 3) ∧
      RegisterAbort (writeFrame w.1 w.2) es call ∧ e = .transport call ∧
      Moved s (writeEvents (ws.take k) rs ++ es) (if k = 0 then s.mode else .program) .unknown t := by
  obtain ⟨k, w, rs, hk, hl, hr, -, u, m, h2⟩ := writeRegs_raised_at h
  rcases writeReg_raised h2 with ⟨hno, -, -⟩ | ⟨-, es, call, ha, he, m2⟩
  · rw [m.cfg] at hno
    have := List.all_eq_true.1 hw w (List.mem_of_getElem? hk)
    simp [hno] at this
  · exact ⟨k, w, rs, es, call, hk, hl, hr, ha, he, m.mode ▸ m.trans m2⟩

/-- No write is refused where every register admits its write. -/
theorem firstRefused_eq_none {cfg : Config} {ws : List (Nat × Byte)} :
    firstRefused cfg ws = none ↔ allWritable cfg ws = true := by
  induction ws with
  | nil => simp [firstRefused, allWritable]
  | cons w ws ih =>
    have hc : allWritable cfg (w :: ws) = (registerOk cfg w.1 .write && allWritable cfg ws) := rfl
    rw [firstRefused, hc]
    cases registerOk cfg w.1 .write <;> simp [ih]

/-- The write refused is the first whose register does not admit it. -/
theorem firstRefused_eq_some {cfg : Config} {ws : List (Nat × Byte)} {addr : Nat} :
    firstRefused cfg ws = some addr ↔
      ∃ k v, ws[k]? = some (addr, v) ∧ allWritable cfg (ws.take k) = true ∧
        registerOk cfg addr .write = false := by
  induction ws with
  | nil => simp [firstRefused]
  | cons w ws ih =>
    have hc (l : List (Nat × Byte)) :
        allWritable cfg (w :: l) = (registerOk cfg w.1 .write && allWritable cfg l) := rfl
    rw [firstRefused]
    cases hw : registerOk cfg w.1 .write
    · simp only [Option.some.injEq]
      constructor
      · rintro rfl
        exact ⟨0, w.2, rfl, rfl, hw⟩
      · rintro ⟨k, v, hk, ht, -⟩
        cases k with
        | zero => simp only [List.getElem?_cons_zero, Option.some.injEq] at hk; rw [hk]
        | succ k => simp [List.take_succ_cons, hc, hw] at ht
    · simp only [ih]
      constructor
      · rintro ⟨k, v, hk, ht, hr⟩
        exact ⟨k + 1, v, by simpa using hk, by simpa [List.take_succ_cons, hc, hw] using ht, hr⟩
      · rintro ⟨k, v, hk, ht, hr⟩
        cases k with
        | zero =>
          simp only [List.getElem?_cons_zero, Option.some.injEq] at hk
          simp [hk, hr] at hw
        | succ k =>
          exact ⟨k, v, by simpa using hk, by simpa [List.take_succ_cons, hc, hw] using ht, hr⟩

theorem writeRegs_append (ws vs : List (Nat × Byte)) (s : State) :
    writeRegs (ws ++ vs) s = (writeRegs ws s).andThen fun _ t => writeRegs vs t := by
  induction ws generalizing s with
  | nil => rfl
  | cons w ws ih =>
    simp only [List.cons_append, writeRegs]
    cases h : writeReg w.1 w.2 s <;> simp [ih]

theorem writeRegs_served {ws : List (Nat × Byte)} {rs : List Served} {rest : List Answer}
    (hw : allWritable s.cfg ws = true) (hlen : rs.length = ws.length)
    (hrs : ∀ r ∈ rs, r.onExchange.length = 3) (h : s.answers = servedAnswers rs ++ rest) :
    writeRegs ws s = .done ()
      { s with trace := s.trace ++ writeEvents ws rs,
               mode := if ws = [] then s.mode else .program,
               cs := if ws = [] then s.cs else .deassert, answers := rest } := by
  induction ws generalizing s rs with
  | nil =>
    cases rs with
    | nil =>
      have : s.answers = rest := by simpa [servedAnswers] using h
      simp [writeRegs, writeEvents, ← this]
    | cons _ _ => cases hlen
  | cons w ws ih =>
    cases rs with
    | nil => cases hlen
    | cons r rs =>
      have hw' : registerOk s.cfg w.1 .write = true ∧ allWritable s.cfg ws = true := by
        simpa [allWritable] using hw
      have hr : s.answers = r.answers ++ (servedAnswers rs ++ rest) := by
        simpa [servedAnswers, List.append_assoc] using h
      simp only [writeRegs, writeReg, hw'.1]
      rw [regTxn_served hr (by simpa [writeFrame] using hrs r (by simp))]
      simp only [Attempt.done_andThen]
      have := ih (s := { s with
          trace := s.trace ++ registerEvents (writeFrame w.1 w.2) r.onExchange, mode := .program,
          cs := .deassert, answers := servedAnswers rs ++ rest })
        (rs := rs) hw'.2 (by simpa using hlen) (fun r hr => hrs r (by simp [hr])) rfl
      rw [this]
      simp [writeEvents, List.append_assoc]

/-! ### The command transaction -/

/-- The prefixes of a command transaction that end in a failed call (60_exceptions.md R216). -/
inductive CommandAbort (frame : List Byte) (pre : Mode) : List Event → FailedCall → Prop where
  | onAssert : CommandAbort frame pre [.cs .assert .fail] .cs
  | onExchange : CommandAbort frame pre [.cs .assert .done, .xfer frame none] (.exchange frame)
  | onEcho (in1 : List Byte) (h1 : in1.length = frame.length) (he : pre.echoes = true) :
      CommandAbort frame pre [.cs .assert .done, .xfer frame (some in1), .xfer echoFrame none]
        (.exchange echoFrame)
  | onDeassert (in1 : List Byte) (h1 : in1.length = frame.length) (he : pre.echoes = false) :
      CommandAbort frame pre [.cs .assert .done, .xfer frame (some in1), .cs .deassert .fail] .cs
  | onDeassertEcho (in1 in2 : List Byte) (h1 : in1.length = frame.length)
      (h2 : in2.length = 2) (he : pre.echoes = true) :
      CommandAbort frame pre [.cs .assert .done, .xfer frame (some in1),
        .xfer echoFrame (some in2), .cs .deassert .fail] .cs

/-- An aborted command ends with the failed call's event, and waits nowhere. -/
theorem CommandAbort.last {frame : List Byte} {pre : Mode} {es : List Event} {c : FailedCall}
    (h : CommandAbort frame pre es c) :
    ∃ fs f, es = fs ++ [f] ∧ f.failedCall = some c ∧ delayCount fs = 0 ∧ delayCount es = 0 ∧
      ∀ x ∈ fs, x.isFail = false := by
  cases h
  · exact ⟨[], _, rfl, rfl, rfl, rfl, by simp⟩
  · exact ⟨[_], _, rfl, rfl, rfl, rfl, by simp [Event.isFail]⟩
  · exact ⟨[_, _], _, rfl, rfl, rfl, rfl, by simp [Event.isFail]⟩
  · exact ⟨[_, _], _, rfl, rfl, rfl, rfl, by simp [Event.isFail]⟩
  · exact ⟨[_, _, _], _, rfl, rfl, rfl, rfl, by simp [Event.isFail]⟩

/-- The events of the conditional second exchange. -/
theorem readEcho_done {pre : Mode} {w : Word} (h : readEcho pre s = .done w t) :
    (pre.echoes = true ∧ ∃ in2 : List Byte, in2.length = 2 ∧
      w = msbFirst (in2.getD 0 0) (in2.getD 1 0) ∧
      Moved s [.xfer echoFrame (some in2)] s.mode s.cs t) ∨
    (pre.echoes = false ∧ w = 0 ∧ t = s) := by
  unfold readEcho at h
  split at h <;> rename_i he
  · obtain ⟨in2, u, h1, h2⟩ := Attempt.andThen_eq_done.1 h
    cases h2
    obtain ⟨hl, m⟩ := exchange_done h1
    exact .inl ⟨he, in2, hl, rfl, m⟩
  · cases h
    exact .inr ⟨he, rfl, rfl⟩

theorem readEcho_raised {pre : Mode} (h : readEcho pre s = .raised e t) :
    pre.echoes = true ∧ e = .transport (.exchange echoFrame) ∧
      Moved s [.xfer echoFrame none] s.mode .unknown t := by
  unfold readEcho at h
  split at h <;> rename_i he
  · rcases Attempt.andThen_eq_raised.1 h with h1 | ⟨_, _, _, h2⟩
    · exact ⟨he, exchange_raised h1⟩
    · cases h2
  · cases h

/-- The delay that follows a command from PowerDown. -/
theorem settle_moved (pre : Mode) :
    Moved s (if pre = .powerDown then [.delay s.cfg.settleDelayMs] else []) s.mode s.cs
      (settle pre s) := by
  cases pre
  all_goals first
    | simpa [settle, Mode.settles] using Moved.refl
    | simpa [settle, Mode.settles, delay] using Moved.refl.log _

theorem commandFrame_length (cfg : Config) (cmd : Cmd) : (commandFrame cfg cmd).length = 2 := rfl

theorem cmdTxn_done {cmd : Cmd} {w : Word} (h : cmdTxn cmd s = .done w t) :
    ∃ in1 in2 : List Byte, in1.length = 2 ∧ (s.mode.echoes = true → in2.length = 2) ∧
      w = (if s.mode.echoes then msbFirst (in2.getD 0 0) (in2.getD 1 0) else 0) ∧
      Moved s (commandEvents s.cfg s.mode cmd in1 in2) (s.mode.next cmd) .deassert t := by
  obtain ⟨_, s1, h1, h⟩ := Attempt.andThen_eq_done.1 h
  obtain ⟨in1, s2, h2, h⟩ := Attempt.andThen_eq_done.1 h
  obtain ⟨w', s3, h3, h⟩ := Attempt.andThen_eq_done.1 h
  obtain ⟨_, s4, h4, h⟩ := Attempt.andThen_eq_done.1 h
  cases h
  have m1 := driveCs_done h1
  obtain ⟨hl1, m2⟩ := exchange_done h2
  have m12 := m1.trans m2
  have m4 := driveCs_done h4
  have m5 := settle_moved (s := s4) s.mode
  rcases readEcho_done h3 with ⟨he, in2, hl2, rfl, m3⟩ | ⟨he, rfl, rfl⟩
  · have m := ((m12.trans m3).trans m4).trans m5
    have hc : s4.cfg = s.cfg := ((m12.trans m3).trans m4).cfg
    rw [hc, m4.cs] at m
    refine ⟨in1, in2, hl1, fun _ => hl2, by simp [he], ?_⟩
    simpa [commandEvents, he, echoFrame, Level.toCs, List.append_assoc] using m.setMode (s.mode.next cmd)
  · have m := (m12.trans m4).trans m5
    have hc : s4.cfg = s.cfg := (m12.trans m4).cfg
    rw [hc, m4.cs] at m
    refine ⟨in1, [], hl1, fun h => by simp [he] at h, by simp [he], ?_⟩
    simpa [commandEvents, he, Level.toCs, List.append_assoc] using m.setMode (s.mode.next cmd)

theorem cmdTxn_raised {cmd : Cmd} (h : cmdTxn cmd s = .raised e t) :
    ∃ es call, CommandAbort (commandFrame s.cfg cmd) s.mode es call ∧ e = .transport call ∧
      Moved s es s.mode .unknown t := by
  rcases Attempt.andThen_eq_raised.1 h with h1 | ⟨_, s1, h1, h⟩
  · exact ⟨_, _, .onAssert, driveCs_raised h1⟩
  have m1 := driveCs_done h1
  rcases Attempt.andThen_eq_raised.1 h with h2 | ⟨in1, s2, h2, h⟩
  · obtain ⟨he, m2⟩ := exchange_raised h2
    exact ⟨_, _, .onExchange, he, m1.mode ▸ m1.trans m2⟩
  obtain ⟨hl1, m2⟩ := exchange_done h2
  have m12 := m1.trans m2
  rw [m1.mode] at m12
  rcases Attempt.andThen_eq_raised.1 h with h3 | ⟨w, s3, h3, h⟩
  · obtain ⟨hecho, he, m3⟩ := readEcho_raised h3
    exact ⟨_, _, .onEcho in1 hl1 hecho, he, m12.mode ▸ m12.trans m3⟩
  rcases Attempt.andThen_eq_raised.1 h with h4 | ⟨_, s4, h4, h⟩
  · obtain ⟨he, m4⟩ := driveCs_raised h4
    rcases readEcho_done h3 with ⟨hecho, in2, hl2, rfl, m3⟩ | ⟨hecho, rfl, rfl⟩
    · have m := (m12.trans m3).trans m4
      rw [m3.mode, m12.mode] at m
      exact ⟨_, _, .onDeassertEcho in1 in2 hl1 hl2 hecho, he, m⟩
    · exact ⟨_, _, .onDeassert in1 hl1 hecho, he, m12.mode ▸ m12.trans m4⟩
  · cases h

theorem settle_eq (pre : Mode) (s : State) :
    settle pre s =
      { s with trace := s.trace ++ if pre = .powerDown then [.delay s.cfg.settleDelayMs] else [] } := by
  cases pre <;> simp [settle, Mode.settles, delay, State.log]

/-- A command from a pre-state outside the echo set, served. -/
theorem cmdTxn_served_silent {cmd : Cmd} {a in1 d : List Byte} {rest : List Answer}
    (he : s.mode.echoes = false) (hl : in1.length = 2)
    (h : s.answers = .returns a :: .returns in1 :: .returns d :: rest) (in2 : List Byte) :
    cmdTxn cmd s = .done 0
      { s with trace := s.trace ++ commandEvents s.cfg s.mode cmd in1 in2,
               mode := s.mode.next cmd, cs := .deassert, answers := rest } := by
  unfold cmdTxn
  rw [driveCs_returns h]
  simp only [Attempt.done_andThen]
  rw [exchange_returns (bs := in1) (rest := .returns d :: rest) rfl
    (hl.trans (commandFrame_length s.cfg cmd).symm)]
  simp only [Attempt.done_andThen, readEcho, he]
  rw [driveCs_returns (rest := rest) rfl]
  simp only [Attempt.done_andThen]
  rw [settle_eq]
  simp [commandEvents, he, State.log, State.setCs, State.setMode, State.setAnswers, Level.toCs,
    List.append_assoc]

/-- A command from a pre-state in the echo set, served. -/
theorem cmdTxn_served_echo {cmd : Cmd} {a in1 in2 d : List Byte} {rest : List Answer}
    (he : s.mode.echoes = true) (hl : in1.length = 2) (hl2 : in2.length = 2)
    (h : s.answers = .returns a :: .returns in1 :: .returns in2 :: .returns d :: rest) :
    cmdTxn cmd s = .done (msbFirst (in2.getD 0 0) (in2.getD 1 0))
      { s with trace := s.trace ++ commandEvents s.cfg s.mode cmd in1 in2,
               mode := s.mode.next cmd, cs := .deassert, answers := rest } := by
  unfold cmdTxn
  rw [driveCs_returns h]
  simp only [Attempt.done_andThen]
  rw [exchange_returns (bs := in1) (rest := .returns in2 :: .returns d :: rest) rfl
    (hl.trans (commandFrame_length s.cfg cmd).symm)]
  simp only [Attempt.done_andThen, readEcho, he]
  rw [exchange_returns (out := echoFrame) (bs := in2) (rest := .returns d :: rest) rfl hl2]
  simp only [Attempt.done_andThen]
  rw [driveCs_returns (rest := rest) rfl]
  simp only [Attempt.done_andThen]
  rw [settle_eq]
  simp [commandEvents, he, echoFrame, State.log, State.setCs, State.setMode, State.setAnswers,
    Level.toCs, List.append_assoc]

/-! ### OPEN and CLOSE -/

/-- The prefixes of `OPEN`'s calls that end in a failed call (40_lifecycle.md R104). -/
inductive OpenAbort (busId deviceId spiHz : Rat) : List Event → FailedCall → Prop where
  | onOpen : OpenAbort busId deviceId spiHz [.opened busId deviceId .fail] .openBus
  | onConfigure : OpenAbort busId deviceId spiHz
      [.opened busId deviceId .done, .configured 0 spiHz 8 .fail] .configure
  | onDeassert : OpenAbort busId deviceId spiHz
      [.opened busId deviceId .done, .configured 0 spiHz 8 .done, .cs .deassert .fail] .cs

theorem openTxn_done {b d c v z : Rat} (h : openTxn b d c v z s = .done () t) :
    ∃ u, Moved s [.opened b d .done, .configured 0 z 8 .done, .cs .deassert .done] s.mode .deassert u ∧
      t = u.construct b d c v z := by
  obtain ⟨_, s1, h1, h⟩ := Attempt.andThen_eq_done.1 h
  obtain ⟨_, s2, h2, h⟩ := Attempt.andThen_eq_done.1 h
  obtain ⟨_, s3, h3, h⟩ := Attempt.andThen_eq_done.1 h
  cases h
  have m12 := (callTransport_done h1).2.trans (callTransport_done h2).2
  have m := m12.trans (driveCsLine_done h3)
  rw [m12.mode, (callTransport_done h1).2.mode] at m
  exact ⟨s3, m, rfl⟩

theorem openTxn_raised {b d c v z : Rat} (h : openTxn b d c v z s = .raised e t) :
    ∃ es call, OpenAbort b d z es call ∧ e = .transport call ∧ Moved s es s.mode .unknown t := by
  rcases Attempt.andThen_eq_raised.1 h with h1 | ⟨_, s1, h1, h⟩
  · exact ⟨_, _, .onOpen, callTransport_raised h1⟩
  have m1 := (callTransport_done h1).2
  rcases Attempt.andThen_eq_raised.1 h with h2 | ⟨_, s2, h2, h⟩
  · obtain ⟨he, m2⟩ := callTransport_raised h2
    exact ⟨_, _, .onConfigure, he, m1.mode ▸ m1.trans m2⟩
  have m12 := m1.trans (callTransport_done h2).2
  rw [m1.mode] at m12
  rcases Attempt.andThen_eq_raised.1 h with h3 | ⟨_, s3, h3, h⟩
  · obtain ⟨he, m3⟩ := driveCsLine_raised h3
    exact ⟨_, _, .onDeassert, he, m12.mode ▸ m12.trans m3⟩
  · cases h

theorem closeTxn_done (h : closeTxn s = .done () t) :
    ∃ u, Moved s [.closed .done] s.mode s.cs u ∧ t = u.setLife .closed := by
  unfold closeTxn at h
  split at h <;> rename_i hc <;> cases h
  exact ⟨_, (callTransport_done hc).2, rfl⟩

theorem closeTxn_raised (h : closeTxn s = .raised e t) :
    e = .transport .closeBus ∧ ∃ u, Moved s [.closed .fail] s.mode s.cs u ∧ t = u.setLife .closed := by
  unfold closeTxn at h
  split at h <;> rename_i hc <;> cases h
  exact ⟨(callTransport_raised hc).1, _, (callTransport_raised hc).2, rfl⟩

end Sys2Proof.Machine
end

