-- ==== Sys2Proof/Laws/Exec.lean ====
section
/-! SUPPORT. What `exec` is for each kind of operation, so that no proof unfolds the dispatch again. -/

namespace Sys2Proof.Machine

variable {s t : State} {i : Instr}

theorem manualSelect_legal {ch : Nat} (h : ch < 9) (s : State) :
    manualSelect ch s = runCommand (.man ⟨ch, h⟩) s := by simp [manualSelect, h]

theorem manualSelect_illegal {ch : Nat} (h : 8 < ch) (s : State) :
    manualSelect ch s = whenOpen s (.next (s.returnErr (.invalidChannel ch))) := by
  simp [manualSelect, Nat.not_lt.2 (Nat.succ_le_of_lt h)]

/-- A command operation runs its command's transaction. -/
theorem exec_command {cmd : Cmd} (h : commandOf i = some cmd) :
    exec i s = whenOpen s ((cmdTxn cmd s).finish .u16) := by
  cases i <;> simp only [commandOf, Option.some.injEq, reduceCtorEq] at h
  case manAux ch =>
    split at h <;> rename_i hc
    · cases h
      exact manualSelect_legal hc s
    · cases h
  all_goals
    subst h
    rfl

/-- A command that answers a next state completed its transaction or was aborted in it. -/
theorem exec_command_next {cmd : Cmd} (h : commandOf i = some cmd) (hx : exec i s = .next t) :
    s.life = .opened ∧
      ((∃ w u, cmdTxn cmd s = .done w u ∧ t = u.returnOk (.u16 w)) ∨
        ∃ e u, cmdTxn cmd s = .raised e u ∧ t = u.returnErr e) := by
  rw [exec_command h, whenOpen_eq_next] at hx
  exact ⟨hx.1, Attempt.finish_eq_next.1 hx.2⟩

/-- A helper with legal operands runs the register writes it expands into. -/
theorem exec_helper {ws : List (Nat × Byte)} (h : helperWrites s.cfg i = some ws) :
    exec i s = whenOpen s (runWrites ws s) := by
  cases i <;> simp only [helperWrites, Option.some.injEq, reduceCtorEq] at h
  case setrange ch r =>
    split at h <;> rename_i hc
    · cases h
    · cases hr : rangeOf r with
      | none => simp [hr] at h
      | some range =>
        simp only [hr, Option.map_some, Option.some.injEq] at h
        subst h
        simp [exec, execSetrange, hc, hr]
  case setgrange r =>
    cases hr : rangeOf r with
    | none => simp [hr] at h
    | some range =>
      simp only [hr, Option.map_some, Option.some.injEq] at h
      subst h
      simp [exec, execSetgrange, hr]
  all_goals
    subst h
    rfl

/-- Every operation but `OPEN` and `CLOSE` begins with the check of `life`. -/
theorem exec_closed (hc : i ≠ .close) (ho : isOpenOp i = false) (h : s.life = .closed) :
    exec i s = .refused .closedInstance := by
  cases i <;> simp only [isOpenOp, reduceCtorEq, ne_eq, not_true_eq_false] at ho hc
  case manAux ch =>
    simp only [exec, execManAux, manualSelect]
    split
    · exact whenOpen_closed h
    · exact whenOpen_closed h
  all_goals exact whenOpen_closed h

/-- Everything a helper's writes do: refused before the first transport call, completed, or aborted. -/
theorem runWrites_next {ws : List (Nat × Byte)} (h : runWrites ws s = .next t) :
    (∃ addr, firstRefused s.cfg ws = some addr ∧ t = s.returnErr (.invalidRegister addr)) ∨
    (allWritable s.cfg ws = true ∧
      ((∃ u, writeRegs ws s = .done () u ∧ t = u.returnOk .unit) ∨
        ∃ e u, writeRegs ws s = .raised e u ∧ t = u.returnErr e)) := by
  unfold runWrites at h
  split at h <;> rename_i hr
  · cases h
    exact .inl ⟨_, hr, rfl⟩
  · refine .inr ⟨firstRefused_eq_none.1 hr, ?_⟩
    rcases Attempt.finish_eq_next.1 h with ⟨_, u, h1, h2⟩ | h
    · exact .inl ⟨u, h1, h2⟩
    · exact .inr h

/-- Where every register admits its write, a helper's writes are the writes alone. -/
theorem runWrites_writable {ws : List (Nat × Byte)} (h : allWritable s.cfg ws = true) :
    runWrites ws s = (writeRegs ws s).finish fun _ => .unit := by
  simp [runWrites, firstRefused_eq_none.2 h]

/-- The state a list of register writes leaves, whichever way it ends. -/
theorem writeRegs_moved {ws : List (Nat × Byte)} {u : State} {e : Err}
    (hw : allWritable s.cfg ws = true)
    (h : writeRegs ws s = .done () u ∨ writeRegs ws s = .raised e u) :
    ∃ es m l, Moved s es m l u ∧ (m = s.mode ∨ m = .program) := by
  rcases h with h | h
  · obtain ⟨-, rs, -, -, m⟩ := writeRegs_done h
    exact ⟨_, _, _, m, by by_cases hw : ws = [] <;> simp [hw]⟩
  · obtain ⟨k, w, rs, es, call, -, -, -, -, -, m⟩ := writeRegs_aborted hw h
    exact ⟨_, _, _, m, by by_cases hk : k = 0 <;> simp [hk]⟩

/-! ### The ways an operation answers a next state -/

/-- Every operation is a command, a manual select of no channel, a register operation, a host-only
operation, `OPEN` or `CLOSE`. -/
theorem instr_kinds (i : Instr) :
    (∃ cmd, commandOf i = some cmd) ∨ (∃ ch, i = .manAux ch ∧ 8 < ch) ∨ isRegisterOp i = true ∨
      isHostOnly i = true ∨ isOpenOp i = true ∨ i = .close := by
  cases i <;> simp [commandOf, isRegisterOp, isHostOnly, isOpenOp]
  rename_i ch
  by_cases h : ch < 9
  · exact .inl h
  · exact .inr (by omega)

theorem exec_manAux_illegal_next {ch : Nat} (h : 8 < ch) (hx : exec (.manAux ch) s = .next t) :
    s.life = .opened ∧ t = s.returnErr (.invalidChannel ch) := by
  rw [show exec (.manAux ch) s = manualSelect ch s from rfl, manualSelect_illegal h] at hx
  obtain ⟨hl, hx⟩ := whenOpen_eq_next.1 hx
  cases hx
  exact ⟨hl, rfl⟩

/-- A register operation that answers a next state is a write, a read, a helper's writes, all to
registers that admit them, or a helper with an operand error. -/
theorem exec_registerOp_next (h : isRegisterOp i = true) (hx : exec i s = .next t) :
    s.life = .opened ∧
    ((∃ addr v, i = .wreg addr v ∧ ((∃ b u, writeReg addr v s = .done b u ∧ t = u.returnOk (.u8 b)) ∨
        ∃ e u, writeReg addr v s = .raised e u ∧ t = u.returnErr e)) ∨
      (∃ addr, i = .rreg addr ∧ ((∃ b u, readReg addr s = .done b u ∧ t = u.returnOk (.u8 b)) ∨
        ∃ e u, readReg addr s = .raised e u ∧ t = u.returnErr e)) ∨
      (∃ ws, ws ≠ [] ∧ helperWrites s.cfg i = some ws ∧ allWritable s.cfg ws = true ∧
        ((∃ u, writeRegs ws s = .done () u ∧ t = u.returnOk .unit) ∨
          ∃ e u, writeRegs ws s = .raised e u ∧ t = u.returnErr e)) ∨
      (∃ e, (∀ ws, helperWrites s.cfg i = some ws → allWritable s.cfg ws = false) ∧
        (∀ c, e ≠ .transport c) ∧ t = s.returnErr e)) := by
  have writes {ws : List (Nat × Byte)} (hne : ws ≠ []) (hw : helperWrites s.cfg i = some ws)
      (hx : runWrites ws s = .next t) :
      (∃ ws, ws ≠ [] ∧ helperWrites s.cfg i = some ws ∧ allWritable s.cfg ws = true ∧
        ((∃ u, writeRegs ws s = .done () u ∧ t = u.returnOk .unit) ∨
          ∃ e u, writeRegs ws s = .raised e u ∧ t = u.returnErr e)) ∨
      (∃ e, (∀ ws, helperWrites s.cfg i = some ws → allWritable s.cfg ws = false) ∧
        (∀ c, e ≠ .transport c) ∧ t = s.returnErr e) := by
    rcases runWrites_next hx with ⟨addr, hr, rfl⟩ | ⟨hall, h⟩
    · refine .inr ⟨_, fun vs hv => ?_, by simp, rfl⟩
      cases hw.symm.trans hv
      rw [← Bool.not_eq_true, ← firstRefused_eq_none, hr]
      simp
    · exact .inl ⟨ws, hne, hw, hall, h⟩
  cases i <;> simp only [isRegisterOp, Bool.false_eq_true] at h
  case wreg addr v =>
    obtain ⟨hl, hx⟩ := whenOpen_eq_next.1 hx
    exact ⟨hl, .inl ⟨addr, v, rfl, Attempt.finish_eq_next.1 hx⟩⟩
  case rreg addr =>
    obtain ⟨hl, hx⟩ := whenOpen_eq_next.1 hx
    exact ⟨hl, .inr (.inl ⟨addr, rfl, Attempt.finish_eq_next.1 hx⟩)⟩
  case setrange ch r =>
    obtain ⟨hl, hx⟩ := whenOpen_eq_next.1 hx
    refine ⟨hl, .inr (.inr ?_)⟩
    split at hx <;> rename_i hc
    · cases hx
      exact .inr ⟨_, by simp [helperWrites, hc], by simp, rfl⟩
    · split at hx <;> rename_i hr
      · cases hx
        exact .inr ⟨_, by simp [helperWrites, hr], by simp, rfl⟩
      · exact writes (List.cons_ne_nil _ _) (by simp [helperWrites, hr, hc]) hx
  case setgrange r =>
    obtain ⟨hl, hx⟩ := whenOpen_eq_next.1 hx
    refine ⟨hl, .inr (.inr ?_)⟩
    split at hx <;> rename_i hr
    · cases hx
      exact .inr ⟨_, by simp [helperWrites, hr], by simp, rfl⟩
    · exact writes (by simp [globalRangeWrites]) (by simp [helperWrites, hr]) hx
  all_goals
    obtain ⟨hl, hx⟩ := whenOpen_eq_next.1 hx
    exact ⟨hl, .inr (.inr (writes (List.cons_ne_nil _ _) rfl hx))⟩

/-- A host-only operation returns a value or raises `InvalidRange`, and does nothing else. -/
theorem exec_hostOnly_next (h : isHostOnly i = true) (hx : exec i s = .next t) :
    s.life = .opened ∧
      ((∃ v, t = s.returnOk v) ∨ ∃ n, 8 < n ∧ t = s.returnErr (.invalidRange n)) := by
  cases i <;> simp only [isHostOnly, Bool.false_eq_true] at h
  all_goals obtain ⟨hl, hx⟩ := whenOpen_eq_next.1 hx
  case getmode | getfeat =>
    cases hx
    exact ⟨hl, .inl ⟨_, rfl⟩⟩
  all_goals
    split at hx <;> rename_i hr <;> cases hx
    · exact ⟨hl, .inr ⟨_, rangeOf_eq_none.1 hr, rfl⟩⟩
    · exact ⟨hl, .inl ⟨_, rfl⟩⟩

theorem exec_open_next {b d c v z : Rat} (hx : exec (.openInst b d c v z) s = .next t) :
    s.life = .closed ∧ 0 < v ∧
      ((∃ u, openTxn b d c v z s = .done () u ∧ t = u.returnOk .unit) ∨
        ∃ e u, openTxn b d c v z s = .raised e u ∧ t = u.returnErr e) := by
  change execOpen b d c v z s = _ at hx
  unfold execOpen at hx
  split at hx
  · cases hx
  · split at hx
    · refine ⟨‹_›, ‹_›, ?_⟩
      rcases Attempt.finish_eq_next.1 hx with ⟨_, u, h⟩ | h
      · exact .inl ⟨u, h⟩
      · exact .inr h
    · cases hx

theorem exec_close_next (hx : exec .close s = .next t) :
    (s.life = .closed ∧ t = s.returnOk .unit) ∨
    (s.life = .opened ∧ ((∃ u, closeTxn s = .done () u ∧ t = u.returnOk .unit) ∨
      ∃ e u, closeTxn s = .raised e u ∧ t = u.returnErr e)) := by
  change execClose s = _ at hx
  unfold execClose at hx
  split at hx
  · cases hx
    exact .inl ⟨‹_›, rfl⟩
  · refine .inr ⟨‹_›, ?_⟩
    rcases Attempt.finish_eq_next.1 hx with ⟨_, u, h⟩ | h
    · exact .inl ⟨u, h⟩
    · exact .inr h

/-! ### The step -/

/-- A step that answers a next state performed an operation. -/
theorem step_next (h : step s = .next t) :
    s.stopped = false ∧ ∃ call i, s.fetch = some call ∧ decode call = .ok i ∧ exec i s = .next t := by
  unfold step at h
  split at h
  · cases h
  · split at h
    · cases h
    · split at h
      · cases h
      · exact ⟨‹_›, _, _, ‹_›, ‹_›, h⟩

end Sys2Proof.Machine
end

