-- ==== Sys2Proof/Laws/Fleet.lean ====
section
/-! SUPPORT. What the fleet's checks mean, and everything a step of a fleet can do, said once. -/

namespace Sys2Proof.Machine

variable {s t : State} {f g : Fleet} {k : Nat}

theorem sharesChipSelect_comm (s t : State) : sharesChipSelect s t = sharesChipSelect t s := by
  simp only [sharesChipSelect, decide_eq_decide]
  constructor <;> rintro ⟨h1, h2, h3, h4⟩ <;> exact ⟨h2, h1, h3.symm, h4.symm⟩

theorem ownTransports_iff : ownTransports f = true ↔ (f.map State.transport).Nodup := by
  simp [ownTransports]

theorem ownChipSelects_iff : ownChipSelects f = true ↔
    ∀ (i j : Nat) (s t : State), i ≠ j → f[i]? = some s → f[j]? = some t → sharesChipSelect s t = false := by
  simp only [ownChipSelects, decide_eq_true_eq, List.pairwise_iff_getElem]
  constructor
  · intro h i j s t hij hi hj
    obtain ⟨hi', rfl⟩ := List.getElem?_eq_some_iff.1 hi
    obtain ⟨hj', rfl⟩ := List.getElem?_eq_some_iff.1 hj
    rcases Nat.lt_or_gt_of_ne hij with h' | h'
    · exact h i j hi' hj' h'
    · rw [sharesChipSelect_comm]
      exact h j i hj' hi' h'
  · intro h i j hi hj hij
    exact h i j _ _ (Nat.ne_of_lt hij) (List.getElem?_eq_getElem hi) (List.getElem?_eq_getElem hj)

/-- An admitted fleet is within the model, and is the fleet itself. -/
theorem admitted_eq_next :
    admitted f = .next g ↔ ownTransports f = true ∧ ownChipSelects f = true ∧ g = f := by
  unfold admitted
  cases ownTransports f <;> cases ownChipSelects f <;> simp [eq_comm]

/-- A step of a fleet is a step of its instance, from a fleet within the model to one. -/
theorem fleetStep_eq_next : fleetStep k f = .next g ↔
    ∃ s t, f[k]? = some s ∧ step s = .next t ∧ g = f.set k t ∧
      ownTransports f = true ∧ ownChipSelects f = true ∧
      ownTransports g = true ∧ ownChipSelects g = true := by
  unfold fleetStep
  constructor
  · intro h
    split at h <;> try cases h
    rename_i s f' hs hf
    obtain ⟨h1, h2, -⟩ := admitted_eq_next.1 hf
    split at h <;> try cases h
    rename_i t ht
    obtain ⟨h3, h4, rfl⟩ := admitted_eq_next.1 h
    exact ⟨s, t, hs, ht, rfl, h1, h2, h3, h4⟩
  · rintro ⟨s, t, hs, ht, rfl, h1, h2, h3, h4⟩
    simp [hs, admitted_eq_next.2 ⟨h1, h2, rfl⟩, ht, admitted_eq_next.2 ⟨h3, h4, rfl⟩]

/-- A fleet outside the model has no step, whichever instance would make it. -/
theorem fleetStep_clash (hs : f[k]? = some s) (h : ownTransports f = true)
    (hc : ownChipSelects f = false) : fleetStep k f = .refused .sharedChipSelect := by
  simp [fleetStep, hs, admitted, h, hc]

end Sys2Proof.Machine
end

