-- ==== Sys2Proof/Laws/Trace.lean ====
section
/-! SUPPORT. The grammar of a trace over the events each transaction appends, and the chip-select level
they lead to. -/

namespace Sys2Proof.Machine

variable {cfg : Config} {p q : Phase} {es fs : List Event}

theorem tracePhase_append (cfg : Config) (p : Phase) (es fs : List Event) :
    tracePhase cfg p (es ++ fs) = (tracePhase cfg p es).bind fun q => tracePhase cfg q fs := by
  induction es generalizing p with
  | nil => rfl
  | cons e es ih =>
    simp only [List.cons_append, tracePhase]
    cases nextPhase cfg p e <;> simp [ih]

/-- A legal trace stays legal when legal events follow. -/
theorem tracePhase_trans (h : tracePhase cfg p es = some q) :
    tracePhase cfg p (es ++ fs) = tracePhase cfg q fs := by
  simp [tracePhase_append, h]

theorem traceLevel_append (l : Cs) (es fs : List Event) :
    traceLevel l (es ++ fs) = traceLevel (traceLevel l es) fs := by
  simp [traceLevel]

theorem isCommandFrame_commandFrame (cfg : Config) (cmd : Cmd) :
    isCommandFrame cfg (commandFrame cfg cmd) = true := by
  have : cmd ∈ allCommands := by
    cases cmd with
    | man ch =>
      match ch with
      | 0 | 1 | 2 | 3 | 4 | 5 | 6 | 7 | 8 => decide
    | noop | stdby | pwrdn | rst | autorst => decide
  simp only [isCommandFrame, List.any_eq_true]
  exact ⟨cmd, this, by simp⟩

theorem registerOk_lt {addr : Nat} {dir : Dir} (h : registerOk cfg addr dir = true) : addr < 64 := by
  simp [registerOk] at h
  omega

theorem isRegisterFrame_writeFrame {addr : Nat} {v : Byte} (h : registerOk cfg addr .write = true) :
    isRegisterFrame cfg (writeFrame addr v) = true := by
  have ha := registerOk_lt h
  simp only [isRegisterFrame, writeFrame, registerByte0_write_top ha, registerByte0_write_w ha,
    registerByte0_write_address ha, h]
  rfl

theorem isRegisterFrame_readFrame {addr : Nat} (h : registerOk cfg addr .read = true) :
    isRegisterFrame cfg (readFrame addr) = true := by
  have ha := registerOk_lt h
  simp only [isRegisterFrame, readFrame, registerByte0_read_top ha, registerByte0_read_w ha,
    registerByte0_read_address ha, h]
  rfl

/-- A command frame has two bytes, a register frame three. -/
theorem isCommandFrame_of_three {b0 b1 b2 : Byte} : isCommandFrame cfg [b0, b1, b2] = false := by
  simp [isCommandFrame, commandFrame]

/-- A command's first exchange is legal once the window is open. -/
theorem nextPhase_command (cfg : Config) (cmd : Cmd) {in1 : List Byte} (h : in1.length = 2) :
    nextPhase cfg .started (.xfer (commandFrame cfg cmd) (some in1)) = some .commandSent := by
  simp [nextPhase, isCommandFrame_commandFrame, h, commandFrame_length]

/-- A completed command is legal, ends outside the window and leaves the line deasserted. -/
theorem tracePhase_commandEvents {pre : Mode} {cmd : Cmd} {in1 in2 : List Byte}
    (h1 : in1.length = 2) (h2 : pre.echoes = true → in2.length = 2) (l : Cs) :
    tracePhase cfg .ready (commandEvents cfg pre cmd in1 in2) = some .ready ∧
      traceLevel l (commandEvents cfg pre cmd in1 in2) = .deassert := by
  cases he : pre.echoes <;> by_cases hp : pre = .powerDown
  · simp [commandEvents, hp, tracePhase, nextPhase, isCommandFrame_commandFrame, h1,
      commandFrame_length, traceLevel, levelAfter, Level.toCs, Mode.echoes]
  · simp [commandEvents, he, hp, tracePhase, nextPhase, isCommandFrame_commandFrame, h1,
      commandFrame_length, traceLevel, levelAfter, Level.toCs]
  · simp [hp, Mode.echoes] at he
  · simp [commandEvents, he, hp, tracePhase, nextPhase, isCommandFrame_commandFrame, h1, h2 he,
      commandFrame_length, traceLevel, levelAfter, Level.toCs]

/-- An aborted command is legal and leaves the line UNKNOWN. -/
theorem tracePhase_commandAbort {pre : Mode} {cmd : Cmd} {c : FailedCall}
    (h : CommandAbort (commandFrame cfg cmd) pre es c) (l : Cs) :
    tracePhase cfg .ready es = some .ready ∧ traceLevel l es = .unknown := by
  cases h <;> simp_all [tracePhase, nextPhase, isCommandFrame_commandFrame, commandFrame_length,
    traceLevel, levelAfter, Level.toCs, echoFrame]

/-- A completed register access is legal and leaves the line deasserted. -/
theorem tracePhase_registerEvents {frame reply : List Byte} (hf : isRegisterFrame cfg frame = true)
    (h3 : frame.length = 3) (hl : reply.length = 3) (l : Cs) :
    tracePhase cfg .ready (registerEvents frame reply) = some .ready ∧
      traceLevel l (registerEvents frame reply) = .deassert := by
  match frame, h3 with
  | [b0, b1, b2], _ =>
    simp [registerEvents, tracePhase, nextPhase, isCommandFrame_of_three, hf, hl, traceLevel,
      levelAfter, Level.toCs]

/-- An aborted register access is legal and leaves the line UNKNOWN. -/
theorem tracePhase_registerAbort {frame : List Byte} {c : FailedCall}
    (hf : isRegisterFrame cfg frame = true) (h3 : frame.length = 3)
    (h : RegisterAbort frame es c) (l : Cs) :
    tracePhase cfg .ready es = some .ready ∧ traceLevel l es = .unknown := by
  match frame, h3 with
  | [b0, b1, b2], _ =>
    cases h <;> simp_all [tracePhase, nextPhase, isCommandFrame_of_three, traceLevel, levelAfter,
      Level.toCs]

/-- Completed register writes are legal, one after another. -/
theorem tracePhase_writeEvents {ws : List (Nat × Byte)} {rs : List Served}
    (hw : allWritable cfg ws = true) (hlen : rs.length = ws.length)
    (h3 : ∀ r ∈ rs, r.onExchange.length = 3) (l : Cs) :
    tracePhase cfg .ready (writeEvents ws rs) = some .ready ∧
      traceLevel l (writeEvents ws rs) = if ws = [] then l else .deassert := by
  induction ws generalizing rs l with
  | nil => simp [writeEvents, tracePhase, traceLevel]
  | cons w ws ih =>
    cases rs with
    | nil => cases hlen
    | cons r rs =>
      have hw' : registerOk cfg w.1 .write = true ∧ allWritable cfg ws = true := by
        simpa [allWritable] using hw
      have h1 := tracePhase_registerEvents (isRegisterFrame_writeFrame (v := w.2) hw'.1) rfl
        (h3 r (by simp)) l
      have h2 := ih hw'.2 (by simpa using hlen) (fun r hr => h3 r (by simp [hr])) .deassert
      simp only [writeEvents, tracePhase_append, traceLevel_append, h1.1, h1.2, Option.bind_some,
        h2.1, h2.2]
      simp

/-! ### Counts over lists of events -/

theorem delayCount_append (es fs : List Event) :
    delayCount (es ++ fs) = delayCount es + delayCount fs := by
  induction es with
  | nil => simp [delayCount]
  | cons e es ih =>
    cases e <;> simp [delayCount, ih]
    omega

theorem outBytes_append (es fs : List Event) : outBytes (es ++ fs) = outBytes es ++ outBytes fs := by
  induction es with
  | nil => simp [outBytes]
  | cons e es ih => cases e <;> simp [outBytes, ih]

/-- Register writes wait nowhere. -/
theorem writeEvents_delayCount (ws : List (Nat × Byte)) (rs : List Served) :
    delayCount (writeEvents ws rs) = 0 := by
  induction ws generalizing rs with
  | nil => simp [writeEvents, delayCount]
  | cons w ws ih => cases rs <;> simp [writeEvents, registerEvents, delayCount, ih]

/-- The frames of completed register writes. -/
theorem writeEvents_outBytes {ws : List (Nat × Byte)} {rs : List Served}
    (h : rs.length = ws.length) :
    outBytes (writeEvents ws rs) = ws.map fun w => writeFrame w.1 w.2 := by
  induction ws generalizing rs with
  | nil => simp [writeEvents, outBytes]
  | cons w ws ih =>
    cases rs with
    | nil => cases h
    | cons r rs => simp [writeEvents, registerEvents, outBytes, ih (by simpa using h)]

theorem writeEvents_isFail {ws : List (Nat × Byte)} {rs : List Served} :
    ∀ x ∈ writeEvents ws rs, x.isFail = false := by
  induction ws generalizing rs with
  | nil => simp [writeEvents]
  | cons w ws ih =>
    cases rs with
    | nil => simp [writeEvents]
    | cons r rs =>
      intro x hx
      simp only [writeEvents, registerEvents, List.cons_append, List.nil_append, List.mem_cons] at hx
      rcases hx with rfl | rfl | rfl | h
      · rfl
      · rfl
      · rfl
      · exact ih x h

theorem commandEvents_isFail {pre : Mode} {cmd : Cmd} {in1 in2 : List Byte} :
    ∀ x ∈ commandEvents cfg pre cmd in1 in2, x.isFail = false := by
  intro x hx
  simp only [commandEvents, List.cons_append, List.nil_append, List.mem_cons, List.mem_append,
    List.append_assoc] at hx
  rcases hx with rfl | rfl | h | rfl | h
  · rfl
  · rfl
  · split at h <;> simp at h
    subst h; rfl
  · rfl
  · split at h <;> simp at h
    subst h; rfl

end Sys2Proof.Machine
end

