-- ==== Sys2Proof/Laws/Outcome.lean ====
section
/-! SUPPORT. Everything an operation other than `OPEN` and `CLOSE` can do, said once, and when it hangs. -/

namespace Sys2Proof.Machine

variable {cfg : Config} {s t : State} {i : Instr}

/-- The writes of a helper with legal operands go to writable registers, where the map has them. -/
theorem allWritable_of_helpersWritable {ws : List (Nat × Byte)} (h : helperWrites cfg i = some ws)
    (hw : helpersWritable cfg = true) : allWritable cfg ws = true := by
  simp only [helpersWritable, Bool.and_eq_true, List.all_eq_true, List.mem_range] at hw
  obtain ⟨⟨h1, h2⟩, h3⟩ := hw
  cases i <;> simp only [helperWrites, Option.some.injEq, reduceCtorEq] at h
  case setrange ch r =>
    split at h
    · cases h
    · obtain ⟨range, -, rfl⟩ := Option.map_eq_some_iff.1 h
      simpa [allWritable, rangeWrite] using h3 ch (by omega)
  case setgrange r =>
    obtain ⟨range, -, rfl⟩ := Option.map_eq_some_iff.1 h
    simpa [allWritable, globalRangeWrites, rangeWrite] using h3
  all_goals
    subst h
    simp [allWritable, sequencePowerWrites, h1, h2]

/-- How an operation ended, from the events it appended. -/
inductive Ended (s u t : State) (es : List Event) : Prop where
  | ok (v : Value) (ht : t = u.returnOk v) (h : ∀ x ∈ es, x.isFail = false)
  | failed (c : FailedCall) (fs : List Event) (f : Event) (ht : t = u.returnErr (.transport c))
      (he : es = fs ++ [f]) (hf : f.failedCall = some c) (h : ∀ x ∈ fs, x.isFail = false)
  | operand (e : Err) (ht : t = s.returnErr e) (he : ∀ c, e ≠ .transport c) (hes : es = [])

/-- Everything an operation other than `OPEN` and `CLOSE` can do. -/
theorem exec_next_cases (ho : isOpenOp i = false) (hc : i ≠ .close) (hx : exec i s = .next t) :
    s.life = .opened ∧ ∃ es m l u, Moved s es m l u ∧
      tracePhase s.cfg .ready es = some .ready ∧ traceLevel s.cs es = l ∧ Ended s u t es := by
  rcases instr_kinds i with ⟨c, hcmd⟩ | ⟨ch, rfl, hch⟩ | h | h | h | rfl
  · obtain ⟨hl, ⟨w, u, hd, rfl⟩ | ⟨e, u, hd, rfl⟩⟩ := exec_command_next hcmd hx
    · obtain ⟨in1, in2, h1, h2, _, m⟩ := cmdTxn_done hd
      obtain ⟨hp, hv⟩ := tracePhase_commandEvents (cfg := s.cfg) (cmd := c) h1 h2 s.cs
      exact ⟨hl, _, _, _, u, m, hp, hv, .ok _ rfl commandEvents_isFail⟩
    · obtain ⟨es, call, ha, rfl, m⟩ := cmdTxn_raised hd
      obtain ⟨hp, hv⟩ := tracePhase_commandAbort ha s.cs
      obtain ⟨fs, f, he, hf, -, -, hall⟩ := ha.last
      exact ⟨hl, es, _, _, u, m, hp, hv, .failed call fs f rfl he hf hall⟩
  · obtain ⟨hl, rfl⟩ := exec_manAux_illegal_next hch hx
    exact ⟨hl, [], _, _, s, .refl, rfl, rfl, .operand _ rfl (by simp) rfl⟩
  · obtain ⟨hl, ⟨a, v, rfl, ⟨b, u, hd, rfl⟩ | ⟨e, u, hd, rfl⟩⟩ |
      ⟨a, rfl, ⟨b, u, hd, rfl⟩ | ⟨e, u, hd, rfl⟩⟩ |
      ⟨ws, hne, hw, hall, ⟨u, hd, rfl⟩ | ⟨e, u, hd, rfl⟩⟩ | ⟨e, -, he, rfl⟩⟩ := exec_registerOp_next h hx
    · obtain ⟨hk, r, h3, _, m⟩ := writeReg_done hd
      obtain ⟨hp, hv⟩ := tracePhase_registerEvents (isRegisterFrame_writeFrame (v := v) hk) rfl h3 s.cs
      exact ⟨hl, _, _, _, u, m, hp, hv, .ok _ rfl (by simp [registerEvents, Event.isFail])⟩
    · obtain ⟨_, rfl, rfl⟩ | ⟨hk, es, call, ha, rfl, m⟩ := writeReg_raised hd
      · exact ⟨hl, [], _, _, _, .refl, rfl, rfl, .operand _ rfl (by simp) rfl⟩
      · obtain ⟨hp, hv⟩ := tracePhase_registerAbort (isRegisterFrame_writeFrame (v := v) hk) rfl ha s.cs
        obtain ⟨fs, f, he, hf, -, -, hall, -⟩ := ha.last
        exact ⟨hl, es, _, _, u, m, hp, hv, .failed call fs f rfl he hf hall⟩
    · obtain ⟨hk, r, h3, _, m⟩ := readReg_done hd
      obtain ⟨hp, hv⟩ := tracePhase_registerEvents (isRegisterFrame_readFrame hk) rfl h3 s.cs
      exact ⟨hl, _, _, _, u, m, hp, hv, .ok _ rfl (by simp [registerEvents, Event.isFail])⟩
    · obtain ⟨_, rfl, rfl⟩ | ⟨hk, es, call, ha, rfl, m⟩ := readReg_raised hd
      · exact ⟨hl, [], _, _, _, .refl, rfl, rfl, .operand _ rfl (by simp) rfl⟩
      · obtain ⟨hp, hv⟩ := tracePhase_registerAbort (isRegisterFrame_readFrame hk) rfl ha s.cs
        obtain ⟨fs, f, he, hf, -, -, hall, -⟩ := ha.last
        exact ⟨hl, es, _, _, u, m, hp, hv, .failed call fs f rfl he hf hall⟩
    · obtain ⟨-, rs, hlen, h3, m⟩ := writeRegs_done hd
      obtain ⟨hp, hv⟩ := tracePhase_writeEvents hall hlen h3 s.cs
      exact ⟨hl, _, _, _, u, m, hp, hv, .ok _ rfl writeEvents_isFail⟩
    · obtain ⟨k, w, rs, es, call, hk, hlen, h3, ha, rfl, m⟩ := writeRegs_aborted hall hd
      have hkl : k < ws.length := (List.getElem?_eq_some_iff.1 hk).1
      have hmem := List.all_eq_true.1 hall
      have htake : allWritable s.cfg (ws.take k) = true :=
        List.all_eq_true.2 fun x hx => hmem x (List.mem_of_mem_take hx)
      obtain ⟨hp, -⟩ := tracePhase_writeEvents htake (by simp; omega) h3 s.cs
      obtain ⟨hp', hv'⟩ := tracePhase_registerAbort
        (isRegisterFrame_writeFrame (v := w.2) (hmem w (List.mem_of_getElem? hk))) rfl ha
        (traceLevel s.cs (writeEvents (ws.take k) rs))
      obtain ⟨fs, f, rfl, hf, -, -, hall', -⟩ := ha.last
      refine ⟨hl, _, _, _, u, m, by rw [tracePhase_trans hp, hp'],
        by rw [traceLevel_append, hv'],
        .failed call (_ ++ fs) f rfl (List.append_assoc _ _ _).symm hf ?_⟩
      intro x hx
      rcases List.mem_append.1 hx with hx | hx
      · exact writeEvents_isFail x hx
      · exact hall' x hx
    · exact ⟨hl, [], _, _, _, .refl, rfl, rfl, .operand _ rfl he rfl⟩
  · obtain ⟨hl, ⟨v, rfl⟩ | ⟨n, -, rfl⟩⟩ := exec_hostOnly_next h hx
    · exact ⟨hl, [], _, _, _, .refl, rfl, rfl, .ok _ rfl (by simp)⟩
    · exact ⟨hl, [], _, _, _, .refl, rfl, rfl, .operand _ rfl (by simp) rfl⟩
  · simp [ho] at h
  · exact absurd rfl hc

/-! ### Hangs: only a drawn answer makes one -/

theorem driveCsLine_hung {line l s} (h : driveCsLine line l s = .hung) : MayHang s := by
  rcases Attempt.andThen_eq_hung.1 h with h | ⟨_, _, _, h⟩
  · exact callTransport_hung h
  · cases h

theorem regTxn_hung {f s} (h : regTxn f s = .hung) : MayHang s := by
  rcases Attempt.andThen_eq_hung.1 h with h1 | ⟨_, s1, h1, h⟩
  · exact driveCsLine_hung h1
  have m1 := driveCs_done h1
  rcases Attempt.andThen_eq_hung.1 h with h2 | ⟨_, s2, h2, h⟩
  · exact m1.mayHang (callTransport_hung h2)
  have m2 := m1.trans (exchange_done h2).2
  rcases Attempt.andThen_eq_hung.1 h with h3 | ⟨_, s3, h3, h⟩
  · exact m2.mayHang (driveCsLine_hung h3)
  · cases h

theorem writeRegs_hung {ws s} (h : writeRegs ws s = .hung) : MayHang s := by
  induction ws generalizing s with
  | nil => cases h
  | cons w ws ih =>
    rcases Attempt.andThen_eq_hung.1 h with h1 | ⟨_, s1, h1, h⟩
    · unfold writeReg at h1; split at h1
      · exact regTxn_hung h1
      · cases h1
    · obtain ⟨_, _, _, _, m⟩ := writeReg_done h1
      exact m.mayHang (ih h)

theorem cmdTxn_hung {c s} (h : cmdTxn c s = .hung) : MayHang s := by
  rcases Attempt.andThen_eq_hung.1 h with h1 | ⟨_, s1, h1, h⟩
  · exact driveCsLine_hung h1
  have m1 := driveCs_done h1
  rcases Attempt.andThen_eq_hung.1 h with h2 | ⟨_, s2, h2, h⟩
  · exact m1.mayHang (callTransport_hung h2)
  have m2 := m1.trans (exchange_done h2).2
  rcases Attempt.andThen_eq_hung.1 h with h3 | ⟨_, s3, h3, h⟩
  · unfold readEcho at h3; split at h3
    · rcases Attempt.andThen_eq_hung.1 h3 with h4 | ⟨_, s4, h4, h⟩
      · exact m2.mayHang (callTransport_hung h4)
      · cases h
    · cases h3
  have m3 : MayHang s3 → MayHang s := by
    rcases readEcho_done h3 with ⟨_, _, _, _, m⟩ | ⟨_, _, rfl⟩
    · exact (m2.trans m).mayHang
    · exact m2.mayHang
  rcases Attempt.andThen_eq_hung.1 h with h4 | ⟨_, s4, h4, h⟩
  · exact m3 (driveCsLine_hung h4)
  · cases h

theorem openTxn_hung {b d c v z s} (h : openTxn b d c v z s = .hung) : MayHang s := by
  rcases Attempt.andThen_eq_hung.1 h with h1 | ⟨_, s1, h1, h⟩
  · exact callTransport_hung h1
  have m1 := (callTransport_done h1).2
  rcases Attempt.andThen_eq_hung.1 h with h2 | ⟨_, s2, h2, h⟩
  · exact m1.mayHang (callTransport_hung h2)
  have m2 := m1.trans (callTransport_done h2).2
  rcases Attempt.andThen_eq_hung.1 h with h3 | ⟨_, s3, h3, h⟩
  · exact m2.mayHang (driveCsLine_hung h3)
  · cases h

theorem finish_fault_of_hung {α} {m : Attempt α} {w r} {s : State} (h : m.finish w = .fault r)
    (hm : m = .hung → MayHang s) : r = .transportHang ∧ MayHang s := by
  obtain ⟨h1, h2⟩ := Attempt.finish_eq_fault.1 h
  exact ⟨h2, hm h1⟩

theorem whenOpen_fault {s op r} (h : whenOpen s op = .fault r) : op = .fault r := by
  unfold whenOpen at h; split at h
  · cases h
  · exact h

/-! ### Operations with legal operands -/

/-- A register access that the next answers serve completes and takes those answers. -/
theorem regTxn_serves {frame : List Byte} {s : State} (hl : frame.length = 3)
    (h : serves [0, 3, 0] s.answers = true) :
    ∃ b t, regTxn frame s = .done b t ∧ t.answers = s.answers.drop 3 ∧ t.pc = s.pc := by
  obtain ⟨a, as, ha, -, h⟩ := serves_cons h
  obtain ⟨r, bs, rfl, hr, h⟩ := serves_cons h
  obtain ⟨d, rest, rfl, -, -⟩ := serves_cons h
  refine ⟨_, _, regTxn_served (r := ⟨a, r, d⟩) (rest := rest) ha ?_, by simp [ha], rfl⟩
  simpa [hl] using hr

/-- Register writes that the next answers serve complete and take those answers. -/
theorem writeRegs_serves {ws : List (Nat × Byte)} {s : State} (hw : allWritable s.cfg ws = true)
    (h : serves (ws.flatMap fun _ => [0, 3, 0]) s.answers = true) :
    ∃ t, writeRegs ws s = .done () t ∧
      t.answers = s.answers.drop (ws.flatMap fun _ => [0, 3, 0]).length ∧ t.pc = s.pc := by
  induction ws generalizing s with
  | nil => exact ⟨s, rfl, by simp, rfl⟩
  | cons w ws ih =>
    have hw' : registerOk s.cfg w.1 .write = true ∧ allWritable s.cfg ws = true := by
      simpa [allWritable] using hw
    rw [List.flatMap_cons, serves_append, Bool.and_eq_true] at h
    obtain ⟨b, u, hu, ha, hp⟩ := regTxn_serves (frame := writeFrame w.1 w.2) rfl h.1
    obtain ⟨_, -, -, m⟩ := regTxn_done hu
    obtain ⟨t, ht, hta, htp⟩ := ih (s := u) (by rw [m.cfg]; exact hw'.2) (by rw [ha]; exact h.2)
    refine ⟨t, by simp [writeRegs, writeReg, hw'.1, hu, ht], ?_, htp.trans hp⟩
    rw [hta, ha, List.drop_drop, List.flatMap_cons, List.length_append]
    rfl

/-- A command that the next answers serve completes and takes those answers. -/
theorem cmdTxn_serves {cmd : Cmd} {s : State}
    (h : serves ([0, 2] ++ (if s.mode.echoes then [2] else []) ++ [0]) s.answers = true) :
    ∃ w t, cmdTxn cmd s = .done w t ∧ t.pc = s.pc ∧
      t.answers = s.answers.drop ([0, 2] ++ (if s.mode.echoes then [2] else []) ++ [0]).length := by
  cases he : s.mode.echoes
  all_goals
    simp only [he, if_true, if_false, Bool.false_eq_true, List.cons_append, List.nil_append] at h
    obtain ⟨a, as, ha, -, h⟩ := serves_cons h
    obtain ⟨in1, bs, rfl, h1, h⟩ := serves_cons h
  · obtain ⟨d, rest, rfl, -, -⟩ := serves_cons h
    exact ⟨_, _, cmdTxn_served_silent he (by simpa using h1) ha [], rfl, by simp [ha]⟩
  · obtain ⟨in2, cs, rfl, h2, h⟩ := serves_cons h
    obtain ⟨d, rest, rfl, -, -⟩ := serves_cons h
    exact ⟨_, _, cmdTxn_served_echo he (by simpa using h1) (by simpa using h2) ha, rfl, by simp [ha]⟩

/-- A helper with legal operands has its writes, all to writable registers. -/
theorem helperWrites_of_legal {cfg i} (hr : isRegisterOp i = true) (h1 : ∀ a v, i ≠ .wreg a v)
    (h2 : ∀ a, i ≠ .rreg a) (h : operandsLegal cfg i = true) :
    ∃ ws, helperWrites cfg i = some ws ∧ allWritable cfg ws = true := by
  cases i <;> simp only [isRegisterOp, Bool.false_eq_true] at hr
  case wreg a v => exact absurd rfl (h1 a v)
  case rreg a => exact absurd rfl (h2 a)
  case setrange ch r =>
    simp only [operandsLegal, Bool.and_eq_true, decide_eq_true_eq] at h
    obtain ⟨q, hq⟩ := Option.isSome_iff_exists.1 h.1.2
    exact ⟨[rangeWrite cfg q ch], by simp [helperWrites, Nat.not_lt.2 h.1.1, hq],
      by simpa [allWritable, rangeWrite] using h.2⟩
  case setgrange r =>
    simp only [operandsLegal, Bool.and_eq_true] at h
    obtain ⟨q, hq⟩ := Option.isSome_iff_exists.1 h.1
    exact ⟨globalRangeWrites cfg q, by simp [helperWrites, hq],
      by simpa [allWritable, globalRangeWrites, rangeWrite] using h.2⟩
  all_goals exact ⟨_, rfl, by simpa [allWritable, sequencePowerWrites, operandsLegal] using h⟩

end Sys2Proof.Machine
end

