-- ==== Sys2Proof/Laws/HostSide.lean ====
section
/-! SUPPORT. No transaction depends on the host's side of the state (the result and `pc`), and a list of
operations that each perform register writes is the writes of all of them. -/

namespace Sys2Proof.Machine

variable {cfg : Config} {s t : State} {i : Instr}

/-- `s` with another result and another place in the host program. -/
def State.host (s : State) (r : Option Result) (p : Nat) : State := { s with result := r, pc := p }

/-- The state an attempt leaves, changed. -/
def Attempt.mapState {α : Type} (f : State → State) : Attempt α → Attempt α
  | .done a s => .done a (f s)
  | .raised e s => .raised e (f s)
  | .hung => .hung

variable {r : Option Result} {p : Nat}

theorem callTransport_host (c : TransportCall) (s : State) :
    callTransport c (s.host r p) = (callTransport c s).mapState (·.host r p) := by
  unfold callTransport State.draw
  cases h : s.answers with
  | nil =>
    simp only [State.host, h]
    cases Config.freeAnswer s.transport s.draws s.trace c with
    | returns bs =>
      simp only
      cases c.accepts bs <;> simp [Attempt.mapState, State.countDraw, State.log, State.setCs, h]
    | fails => simp [Attempt.mapState, State.countDraw, State.log, State.setCs, h]
    | hangs => rfl
  | cons a rest =>
    simp only [State.host, h]
    cases a with
    | returns bs => simp only; cases c.accepts bs <;> rfl
    | fails => rfl
    | hangs => rfl

theorem Attempt.mapState_andThen {α β : Type} {f : State → State} {m : Attempt α}
    {k k' : α → State → Attempt β} (h : ∀ a s, k' a (f s) = (k a s).mapState f) :
    (m.mapState f).andThen k' = (m.andThen k).mapState f := by
  cases m <;> simp [Attempt.mapState, Attempt.andThen, h]

theorem driveCs_host (l : Level) (s : State) :
    driveCs l (s.host r p) = (driveCs l s).mapState (·.host r p) := by
  unfold driveCs driveCsLine
  rw [show (s.host r p).csLine = s.csLine from rfl, callTransport_host]
  exact Attempt.mapState_andThen fun _ _ => rfl

theorem regTxn_host (frame : List Byte) (s : State) :
    regTxn frame (s.host r p) = (regTxn frame s).mapState (·.host r p) := by
  unfold regTxn exchange
  rw [driveCs_host]
  refine Attempt.mapState_andThen fun _ s1 => ?_
  rw [callTransport_host]
  refine Attempt.mapState_andThen fun _ s2 => ?_
  rw [driveCs_host]
  exact Attempt.mapState_andThen fun _ s3 => rfl

theorem writeReg_host (a : Nat) (v : Byte) (s : State) :
    writeReg a v (s.host r p) = (writeReg a v s).mapState (·.host r p) := by
  unfold writeReg
  rw [show (s.host r p).cfg = s.cfg from rfl]
  cases registerOk s.cfg a .write
  · rfl
  · exact regTxn_host _ s

theorem writeRegs_host (ws : List (Nat × Byte)) (s : State) :
    writeRegs ws (s.host r p) = (writeRegs ws s).mapState (·.host r p) := by
  induction ws generalizing s with
  | nil => rfl
  | cons w ws ih =>
    unfold writeRegs
    rw [writeReg_host]
    exact Attempt.mapState_andThen fun _ t => ih t

/-- The operation performs these register writes and returns some value. -/
def Performs (i : Instr) (ws : List (Nat × Byte)) (s : State) : Prop :=
  ∃ v, exec i s = (writeRegs ws s).finish fun _ => v

theorem performs_wreg (addr : Nat) (v : Byte) (hl : s.life = .opened) :
    Performs (.wreg addr v) [(addr, v)] s := by
  unfold Performs
  rw [show exec (.wreg addr v) s = (writeReg addr v s).finish .u8 from whenOpen_opened hl]
  simp only [writeRegs]
  cases writeReg addr v s with
  | done b t => exact ⟨.u8 b, rfl⟩
  | raised e t => exact ⟨.unit, rfl⟩
  | hung => exact ⟨.unit, rfl⟩

theorem performs_helper {ws : List (Nat × Byte)} (h : helperWrites s.cfg i = some ws)
    (hw : allWritable s.cfg ws = true) (hl : s.life = .opened) : Performs i ws s :=
  ⟨.unit, by rw [exec_helper h, whenOpen_opened hl, runWrites_writable hw]⟩

/-- Operations that each perform register writes, one after another, perform all the writes; they
leave what the writes leave but for the host's side of the state. -/
theorem execUntilErr_performs {is : List Instr} {ws : List (List (Nat × Byte))}
    (h : ∀ (j : Nat) (i : Instr), is[j]? = some i → ∃ w, ws[j]? = some w ∧
      ∀ s : State, s.life = .opened → s.cfg = cfg → Performs i w s)
    (hlen : is.length = ws.length) (s : State) (hl : s.life = .opened) (hc : s.cfg = cfg)
    (hst : is = [] → s.stopped = false) :
    match writeRegs ws.flatten s with
    | .done _ t => ∃ u, execUntilErr is s = .next u ∧ u.stopped = false ∧
        ∀ r p, u.host r p = t.host r p
    | .raised e t => ∃ u, execUntilErr is s = .next u ∧ u.result = some (.err e) ∧
        ∀ r p, u.host r p = t.host r p
    | .hung => execUntilErr is s = .fault .transportHang := by
  induction is generalizing ws s with
  | nil =>
    cases ws with
    | nil => simp [writeRegs, execUntilErr, hst]
    | cons _ _ => cases hlen
  | cons i is ih =>
    cases ws with
    | nil => cases hlen
    | cons w ws =>
      obtain ⟨w', hw', hex⟩ := h 0 i rfl
      cases hw'
      obtain ⟨v, hex⟩ := hex s hl hc
      rw [List.flatten_cons, writeRegs_append]
      unfold execUntilErr
      rw [hex]
      cases hw : writeRegs w s with
      | raised e t => simp [State.stopped, State.returnErr, State.host]
      | hung => simp
      | done a t =>
        obtain ⟨_, rs, _, _, m⟩ := writeRegs_done hw
        have := ih (ws := ws) (fun j i hj => h (j + 1) i (by simpa using hj)) (by simpa using hlen)
          (t.returnOk v) (by simpa using m.life.trans hl) (by simpa using m.cfg.trans hc)
          (fun _ => rfl)
        rw [show t.returnOk v = t.host (some (.ok v)) (t.pc + 1) from rfl, writeRegs_host] at this
        simp only [Attempt.done_andThen, Attempt.finish_done,
          show (t.returnOk v).stopped = false from rfl]
        cases hq : writeRegs ws.flatten t <;> simp only [hq, Attempt.mapState] at this ⊢ <;>
          exact this

end Sys2Proof.Machine
end

