-- ==== Sys2Proof/Laws/PerInstr.lean ====
section
/-! SUPPORT. The per-instruction family `FrameWidth`: a table word has the two bytes of a command frame
or the three of a register frame (30_encoding.md R70, R84), and operations of format `HOST` or `HELPER`
have none. -/

namespace Sys2Proof.Laws.FrameWidth

/-- The widths of an operation's table word. -/
def Statement (i : Instr) : Prop :=
  ∀ bytes, encodeWord i = some bytes → bytes.length = 2 ∨ bytes.length = 3

/-- A command row's word. -/
theorem of_command {i : Instr} {op : Byte} (h : encodeWord i = some [op, 0x00]) : Statement i := by
  intro bytes hb
  rw [h] at hb
  cases hb
  exact .inl rfl

/-- An operation without a word. -/
theorem of_none {i : Instr} (h : encodeWord i = none) : Statement i := by
  intro bytes hb
  rw [h] at hb
  cases hb

theorem noop : Statement (.noop) := of_command rfl

theorem stdby : Statement (.stdby) := of_command rfl

theorem pwrdn : Statement (.pwrdn) := of_command rfl

theorem rst : Statement (.rst) := of_command rfl

theorem autorst : Statement (.autorst) := of_command rfl

theorem man0 : Statement (.man0) := of_command rfl

theorem man1 : Statement (.man1) := of_command rfl

theorem man2 : Statement (.man2) := of_command rfl

theorem man3 : Statement (.man3) := of_command rfl

theorem man4 : Statement (.man4) := of_command rfl

theorem man5 : Statement (.man5) := of_command rfl

theorem man6 : Statement (.man6) := of_command rfl

theorem man7 : Statement (.man7) := of_command rfl

theorem manAux (ch : Nat) : Statement (.manAux ch) := by
  intro bytes hb
  simp only [encodeWord] at hb
  split at hb <;> cases hb
  exact .inl rfl

theorem wreg (addr : Nat) (v : Byte) : Statement (.wreg addr v) := by
  intro bytes hb
  simp only [encodeWord] at hb
  split at hb <;> cases hb
  exact .inr rfl

theorem rreg (addr : Nat) : Statement (.rreg addr) := by
  intro bytes hb
  simp only [encodeWord] at hb
  split at hb <;> cases hb
  exact .inr rfl

theorem openInst (busId deviceId csLine vref spiHz : Rat) : Statement (.openInst busId deviceId csLine vref spiHz) := of_none rfl

theorem close : Statement (.close) := of_none rfl

theorem getmode : Statement (.getmode) := of_none rfl

theorem getfeat : Statement (.getfeat) := of_none rfl

theorem setrange (ch r : Nat) : Statement (.setrange ch r) := of_none rfl

theorem setgrange (r : Nat) : Statement (.setgrange r) := of_none rfl

theorem setseq (m : Byte) : Statement (.setseq m) := of_none rfl

theorem setpd (m : Byte) : Statement (.setpd m) := of_none rfl

theorem setseqpd (m : Byte) : Statement (.setseqpd m) := of_none rfl

theorem r2v (raw : Word) (r : Nat) : Statement (.r2v raw r) := of_none rfl

theorem v2r (volts : Rat) (r : Nat) : Statement (.v2r volts r) := of_none rfl

end Sys2Proof.Laws.FrameWidth
end

