-- ==== Sys2Proof/Tests/Slice0.lean ====
section
/-! SUPPORT. The model's own tests.  Expected values come from the spec: the words from 30_encoding.md's
bit tables, the steps from 95_test_vectors.md (named at each test) and the rules' examples.  The
witnesses show, for each statement with hypotheses, a concrete case that meets them all. -/

namespace Sys2Proof.Tests

open Sys2Proof Sys2Proof.Machine

/-! ### Helpers -/

/-- The state after `OPEN*` with another mode and with answers listed. -/
def ready (m : Mode) (as : List Answer) : State := { State.reset with mode := m, answers := as }

/-- The same on a closed instance. -/
def shut (as : List Answer) : State := { State.reset with life := .closed, answers := as }

/-- A ready state whose host program is one call. -/
def hosting (call : HostCall) : State := State.reset.load [call]

/-- A call that returns and carries no bytes. -/
def ok : Answer := .returns []

/-- One served register transaction with this third byte. -/
def served (b : Byte) : List Answer := [ok, .returns [0, 0, b], ok]

/-- `n` served register transactions. -/
def writes (n : Nat) : List Answer := (List.replicate n (served 0)).flatten

/-- A served command without an echo. -/
def silent : List Answer := [ok, .returns [9, 9], ok]

/-- A served command with an echo. -/
def echoing : List Answer := [ok, .returns [9, 9], .returns [0x12, 0x34], ok]

/-- Parameters whose map has no register at all. -/
def noRegisters : Config := { defaultConfig with regmap := [] }

/-- Parameters whose map has the sequence register and no power-down register. -/
def onlySequence : Config := { defaultConfig with regmap := [⟨0x01, 0x01, .rw⟩] }

/-- Parameters with a write-only register at address 0. -/
def writeOnlyZero : Config := { defaultConfig with regmap := [⟨0, 0, .wo⟩] }

/-- What a step's next state shows: result, mode, chip-select level and the events after the first 3
(those of `OPEN*`); nothing where there is no next state. -/
def seen (o : Host.Outcome State Fault Refusal) : Option (Option Result × Mode × Cs × List Event) :=
  match o with
  | .next t => some (t.result, t.mode, t.cs, t.trace.drop 3)
  | .fault _ | .refused _ => none

/-- The result alone. -/
def resultOf (o : Host.Outcome State Fault Refusal) : Option Result :=
  match o with
  | .next t => t.result
  | .fault _ | .refused _ => none

/-- The exchanges a step's next state shows. -/
def framesOf (o : Host.Outcome State Fault Refusal) : List (List Byte) :=
  match o with
  | .next t => outBytes t.trace
  | .fault _ | .refused _ => []

/-- The refusal, if the outcome is one. -/
def refusalOf (o : Host.Outcome State Fault Refusal) : Option Refusal :=
  match o with
  | .refused r => some r
  | .next _ | .fault _ => none

/-! ### Decoding: words written out bit by bit (30_encoding.md R73, R76) -/

theorem test_word_noop : decodeTableWord 16 0b0000000000000000 = some .noop := by decide
theorem test_word_stdby : decodeTableWord 16 0b1000001000000000 = some .stdby := by decide
theorem test_word_pwrdn : decodeTableWord 16 0b1000001100000000 = some .pwrdn := by decide
theorem test_word_rst : decodeTableWord 16 0b1000010100000000 = some .rst := by decide
theorem test_word_autorst : decodeTableWord 16 0b1010000000000000 = some .autorst := by decide
theorem test_word_man0 : decodeTableWord 16 0b1100000000000000 = some .man0 := by decide
theorem test_word_man1 : decodeTableWord 16 0b1100010000000000 = some .man1 := by decide
theorem test_word_man2 : decodeTableWord 16 0b1100100000000000 = some .man2 := by decide
theorem test_word_man3 : decodeTableWord 16 0b1100110000000000 = some .man3 := by decide
theorem test_word_man4 : decodeTableWord 16 0b1101000000000000 = some .man4 := by decide
theorem test_word_man5 : decodeTableWord 16 0b1101010000000000 = some .man5 := by decide
theorem test_word_man6 : decodeTableWord 16 0b1101100000000000 = some .man6 := by decide
theorem test_word_man7 : decodeTableWord 16 0b1101110000000000 = some .man7 := by decide
theorem test_word_manAux : decodeTableWord 16 0b1110000000000000 = some (.manAux 8) := by decide
/-- address 0x05 = 000101, W = 1; value 0x06 (R80) -/
theorem test_word_wreg : decodeTableWord 24 0b000010110000011000000000 = some (.wreg 0x05 0x06) := by
  decide
/-- address 0x3F = 111111, W = 0 (42_registers.md R156's example) -/
theorem test_word_rreg : decodeTableWord 24 0b011111100000000000000000 = some (.rreg 0x3F) := by decide

/-- The operations without a table word are selected by mnemonic (R85). -/
theorem test_call_open : decode (.call .openInst [.num 0, .num 0, .num 8, .num 4, .num 1000000]) =
    .ok (.openInst 0 0 8 4 1000000) := rfl
theorem test_call_close : decode (.call .close []) = .ok .close := rfl
theorem test_call_getmode : decode (.call .getmode []) = .ok .getmode := rfl
theorem test_call_getfeat : decode (.call .getfeat []) = .ok .getfeat := rfl
theorem test_call_setrange : decode (.call .setrange [.num 3, .range 8]) = .ok (.setrange 3 8) := rfl
theorem test_call_setgrange : decode (.call .setgrange [.range 6]) = .ok (.setgrange 6) := rfl
theorem test_call_setseq : decode (.call .setseq [.num 3]) = .ok (.setseq 0x03) := rfl
theorem test_call_setpd : decode (.call .setpd [.num 252]) = .ok (.setpd 0xFC) := rfl
theorem test_call_setseqpd : decode (.call .setseqpd [.num 165]) = .ok (.setseqpd 0xA5) := rfl
/-- V79: the omitted range of `R2V` is R0 (R195). -/
theorem test_call_r2v : decode (.call .r2v [.num 65535]) = .ok (.r2v 0xFFFF 0) := rfl
theorem test_call_v2r : decode (.call .v2r [.num 6, .range 6]) = .ok (.v2r 6 6) := rfl
/-- `MAN AUX` is `MAN 8` (R86), and `MAN 3` has its own row. -/
theorem test_call_man : decode (.call .man [.aux]) = .ok (.manAux 8) ∧
    decode (.call .man [.num 3]) = .ok .man3 := ⟨rfl, rfl⟩

/-! ### Ill-formed terms and rejected calls -/

/-- The one check of `WellFormed`: channels 0 to 7 have rows of their own. -/
theorem test_wf_refuses_manAux_3 : Instr.wf (.manAux 3) = false ∧ Instr.wf (.manAux 8) = true := by
  decide
theorem test_reject_frameLength : decode (.word [0x82]) = .error .frameLength := by decide
theorem test_reject_unknownOpcode : decode (.word [0x84, 0x00]) = .error .unknownOpcode := by decide
theorem test_reject_reservedFrame : decode (.word [0x80, 0x00, 0x00]) = .error .reservedFrame := by
  decide
theorem test_reject_fillerNotZero : decode (.word [0x82, 0x01]) = .error .fillerNotZero ∧
    decode (.word [0x7E, 0x01, 0x00]) = .error .fillerNotZero := by decide
theorem test_reject_operandCount : decode (.call .noop [.num 0]) = .error .operandCount := rfl
/-- V93, V94, V95: operands that do not fit. -/
theorem test_reject_operandType : decode (.call .wreg [.num 5, .num 256]) = .error .operandType ∧
    decode (.call .setseq [.num 511]) = .error .operandType ∧
    decode (.call .r2v [.num 65536, .range 0]) = .error .operandType := ⟨rfl, rfl, rfl⟩
/-- V96: a raw opcode byte. -/
theorem test_reject_rawOpcode :
    refusalOf (step (hosting (.rawOpcode 0x84))) = some (.noOperation .rawOpcode) := rfl
theorem test_reject_overlapping :
    refusalOf (step (hosting (.overlapping .noop []))) = some (.noOperation .overlapping) := rfl

/-! ### Text (30_encoding.md R86) -/

theorem test_text_open : assemble "OPEN 0, 0, 8, 4.096, 1000000   ; pc 0".toList =
    .ok [.call .openInst [.num 0, .num 0, .num 8, .num (512 / 125), .num 1000000]] := by
  decide +kernel
theorem test_text_rejects : assemble "JUMP 3".toList = .error .unknownMnemonic ∧
    assemble "MAN x".toList = .error .badOperand := by decide +kernel

/-! ### The step fetches the host program -/

/-- The opcode table's `STDBY` word, loaded, is the very next step. -/
theorem test_withFetchWord : seen (step ({ State.reset with
      answers := [ok, .returns [1, 2], ok] }.withFetchWord 16 0x8200)) =
    some (some (.ok (.u16 0)), .standby, .deassert,
      [.cs .assert .done, .xfer [0x82, 0x00] (some [1, 2]), .cs .deassert .done]) := by decide
/-- From reset the table word's operation is performed, whatever its transport answers. -/
theorem test_withFetchWord_reset : step (State.reset.withFetchWord 24 0x0B0600) =
    exec (.wreg 0x05 0x06) (State.reset.withFetchWord 24 0x0B0600) := rfl
/-- R14: where no answer is listed the first call of the operation is answered by the free oracle, of the
instance's own transport, the trace and the call. -/
theorem test_free_answer : (State.reset.draw (.exchange [0x7E, 0x00, 0x00])).1 =
    Config.freeAnswer 0 0 State.reset.trace (.exchange [0x7E, 0x00, 0x00]) := rfl
theorem test_reset_has_no_program : step State.reset = .fault .programEnded := rfl

/-! ### Commands -/

/-- R129's example; E3's row AutoReset. -/
theorem test_noop_echo : seen (exec .noop (ready .autoReset
      [ok, .returns [9, 9], .returns [0x12, 0x34], ok])) =
    some (some (.ok (.u16 0x1234)), .auto, .deassert,
      [.cs .assert .done, .xfer [0x00, 0x00] (some [9, 9]),
       .xfer [0x00, 0x00] (some [0x12, 0x34]), .cs .deassert .done]) := by decide
/-- E3's row PowerDown. -/
theorem test_noop_settles : seen (exec .noop (ready .powerDown [ok, .returns [9, 9], ok])) =
    some (some (.ok (.u16 0)), .powerDown, .deassert,
      [.cs .assert .done, .xfer [0x00, 0x00] (some [9, 9]), .cs .deassert .done, .delay 15]) := by
  decide
/-- R130's example. -/
theorem test_stdby : seen (exec .stdby (ready .program [ok, .returns [9, 9], ok])) =
    some (some (.ok (.u16 0)), .standby, .deassert,
      [.cs .assert .done, .xfer [0x82, 0x00] (some [9, 9]), .cs .deassert .done]) := by decide
/-- V26. -/
theorem test_stdby_fails_at_deassert :
    seen (exec .stdby (ready .powerDown [ok, .returns [9, 9], .fails])) =
    some (some (.err (.transport .cs)), .powerDown, .unknown,
      [.cs .assert .done, .xfer [0x82, 0x00] (some [9, 9]), .cs .deassert .fail]) := by decide
/-- R131's example. -/
theorem test_pwrdn : seen (exec .pwrdn (ready .manual
      [ok, .returns [9, 9], .returns [0xFF, 0xFF], ok])) =
    some (some (.ok (.u16 0xFFFF)), .powerDown, .deassert,
      [.cs .assert .done, .xfer [0x83, 0x00] (some [9, 9]),
       .xfer [0x00, 0x00] (some [0xFF, 0xFF]), .cs .deassert .done]) := by decide
/-- R132's example. -/
theorem test_rst : seen (exec .rst (ready .idle [ok, .returns [9, 9], ok])) =
    some (some (.ok (.u16 0)), .reset, .deassert,
      [.cs .assert .done, .xfer [0x85, 0x00] (some [9, 9]), .cs .deassert .done]) := by decide
/-- V27. -/
theorem test_rst_fails_at_assert : seen (exec .rst (ready .reset [.fails])) =
    some (some (.err (.transport .cs)), .reset, .unknown, [.cs .assert .fail]) := by decide
/-- R133's example. -/
theorem test_autorst : seen (exec .autorst (ready .program [ok, .returns [9, 9], ok])) =
    some (some (.ok (.u16 0)), .autoReset, .deassert,
      [.cs .assert .done, .xfer [0xA0, 0x00] (some [9, 9]), .cs .deassert .done]) := by decide
/-- R134's example. -/
theorem test_man0 : seen (exec .man0 (ready .program [ok, .returns [9, 9], ok])) =
    some (some (.ok (.u16 0)), .manual, .deassert,
      [.cs .assert .done, .xfer [0xC0, 0x00] (some [9, 9]), .cs .deassert .done]) := by decide
/-- V22: the opcodes of `MAN 1` to `MAN 8`. -/
theorem test_man1 : framesOf (exec .man1 (ready .idle silent)) = [[0xC4, 0x00]] := rfl
theorem test_man2 : framesOf (exec .man2 (ready .idle silent)) = [[0xC8, 0x00]] := rfl
theorem test_man3 : framesOf (exec .man3 (ready .idle silent)) = [[0xCC, 0x00]] := rfl
theorem test_man4 : framesOf (exec .man4 (ready .idle silent)) = [[0xD0, 0x00]] := rfl
theorem test_man5 : framesOf (exec .man5 (ready .idle silent)) = [[0xD4, 0x00]] := rfl
theorem test_man6 : framesOf (exec .man6 (ready .idle silent)) = [[0xD8, 0x00]] := rfl
theorem test_man7 : framesOf (exec .man7 (ready .idle silent)) = [[0xDC, 0x00]] := rfl
theorem test_manAux : framesOf (exec (.manAux 8) (ready .idle silent)) = [[0xE0, 0x00]] := rfl
/-- V24. -/
theorem test_manAux_9 : seen (exec (.manAux 9) (ready .reset [])) =
    some (some (.err (.invalidChannel 9)), .reset, .deassert, []) := by decide

/-! ### Registers -/

/-- V30, E1. -/
theorem test_wreg : seen (exec (.wreg 0x05 0x06) (ready .idle (served 0x06))) =
    some (some (.ok (.u8 0x06)), .program, .deassert,
      [.cs .assert .done, .xfer [0x0B, 0x06, 0x00] (some [0, 0, 0x06]), .cs .deassert .done]) := by
  decide
/-- V40: a read-only register. -/
theorem test_wreg_readOnly : seen (exec (.wreg 0x10 0x00) (ready .idle [])) =
    some (some (.err (.invalidRegister 0x10)), .idle, .deassert, []) := by decide
/-- V34: no echo and no delay whatever the pre-state. -/
theorem test_rreg : seen (exec (.rreg 0x3F) (ready .reset (served 0xC0))) =
    some (some (.ok (.u8 0xC0)), .program, .deassert,
      [.cs .assert .done, .xfer [0x7E, 0x00, 0x00] (some [0, 0, 0xC0]), .cs .deassert .done]) := by
  decide
/-- V44. -/
theorem test_rreg_absent : seen (exec (.rreg 0x00) (ready .idle [])) =
    some (some (.err (.invalidRegister 0x00)), .idle, .deassert, []) := by decide

/-! ### Channel configuration -/

/-- V51. -/
theorem test_setrange : framesOf (exec (.setrange 7 4) (ready .idle (writes 1))) =
    [[0x19, 0x0B, 0x00]] := rfl
/-- V55: the channel is checked before the range. -/
theorem test_setrange_priority : seen (exec (.setrange 9 12) (ready .auto [])) =
    some (some (.err (.invalidChannel 9)), .auto, .deassert, []) := by decide
/-- V56. -/
theorem test_setgrange : framesOf (exec (.setgrange 6) (ready .idle (writes 8))) =
    [[0x0B, 0x06, 0x00], [0x0D, 0x06, 0x00], [0x0F, 0x06, 0x00], [0x11, 0x06, 0x00],
     [0x13, 0x06, 0x00], [0x15, 0x06, 0x00], [0x17, 0x06, 0x00], [0x19, 0x06, 0x00]] := rfl
/-- V64: write 0 fails. -/
theorem test_setgrange_first_fails : seen (exec (.setgrange 1) (ready .auto [.fails])) =
    some (some (.err (.transport .cs)), .auto, .unknown, [.cs .assert .fail]) := by decide
/-- V58. -/
theorem test_setseq : framesOf (exec (.setseq 0x00) (ready .idle (writes 1))) =
    [[0x03, 0x00, 0x00]] := rfl
/-- V59. -/
theorem test_setpd : framesOf (exec (.setpd 0xFC) (ready .idle (writes 1))) =
    [[0x05, 0xFC, 0x00]] := rfl
/-- V62. -/
theorem test_setseqpd : framesOf (exec (.setseqpd 0xA5) (ready .idle (writes 2))) =
    [[0x03, 0xA5, 0x00], [0x05, 0x5A, 0x00]] := rfl
/-- V63: the second write's exchange fails. -/
theorem test_setseqpd_second_fails :
    seen (exec (.setseqpd 0x03) (ready .manual (served 1 ++ [ok, .fails]))) =
    some (some (.err (.transport (.exchange [0x05, 0xFC, 0x00]))), .program, .unknown,
      [.cs .assert .done, .xfer [0x03, 0x03, 0x00] (some [0, 0, 1]), .cs .deassert .done,
       .cs .assert .done, .xfer [0x05, 0xFC, 0x00] none]) := by decide

/-- R214, R218, D12: the second register is checked before the first write, whose transport would fail. -/
theorem test_setseqpd_checked_first :
    seen (exec (.setseqpd 0x03) { ready .manual [.fails] with cfg := onlySequence }) =
    some (some (.err (.invalidRegister 0x02)), .manual, .deassert, []) := by decide

/-! ### Lifecycle and accessors -/

/-- V1. -/
theorem test_open :
    (match exec (.openInst 0 0 8 (512 / 125) 1000000) { State.unopened with answers := [ok, ok, ok] } with
      | .next t => decide (t.life = .opened ∧ t.mode = .idle ∧ t.vref = 512 / 125 ∧ t.feature = 0x00 ∧
          t.cs = .deassert ∧ t.trace = [.opened 0 0 .done, .configured 0 1000000 8 .done,
            .cs .deassert .done])
      | _ => false) = true := by decide +kernel
/-- V3. -/
theorem test_open_configure_fails :
    (match exec (.openInst 0 0 8 (512 / 125) 1000000) { State.unopened with answers := [ok, .fails] } with
      | .next t => decide (t.life = .closed ∧ t.result = some (.err (.transport .configure)) ∧
          t.trace = [.opened 0 0 .done, .configured 0 1000000 8 .fail])
      | _ => false) = true := by decide +kernel
/-- V6 and V8. -/
theorem test_close : (match exec .close (ready .manual [ok]) with
      | .next t => (t.life, t.mode, t.trace.drop 3)
      | _ => (.opened, .idle, [])) = (.closed, .manual, [.closed .done]) := by decide
theorem test_close_fails : (match exec .close (ready .manual [.fails]) with
      | .next t => (t.life, t.result, t.trace.drop 3)
      | _ => (.opened, none, [])) =
    (.closed, some (.err (.transport .closeBus)), [.closed .fail]) := by decide
/-- V10, V11 with the modes' numbers (R24). -/
theorem test_getmode : resultOf (exec .getmode (ready .reset [])) = some (.ok (.mode .reset)) ∧
    Mode.number .idle = 0 ∧ Mode.number .reset = 1 := by decide
/-- V12: `WREG` to the feature-select register leaves `feature`. -/
theorem test_getfeat : (match exec (.wreg 0x03 0x10) (ready .idle (writes 1)) with
      | .next t => resultOf (exec .getfeat t)
      | _ => none) = some (.ok (.u8 0x00)) := rfl
/-- V4, V5, V13, V90: refusals. -/
theorem test_refusals :
    refusalOf (exec (.openInst 0 0 8 0 1000000) (shut [])) = some .vrefNotPositive ∧
    refusalOf (exec (.openInst 0 0 8 4 1000000) State.reset) = some .alreadyOpen ∧
    refusalOf (exec .getmode (shut [])) = some .closedInstance ∧
    refusalOf (exec (.setrange 9 12) (shut [])) = some .closedInstance := by decide +kernel

/-! ### Scaling, with Vref = 4.096 -/

/-- V73 and V76. -/
theorem test_r2v :
    resultOf (exec (.r2v 32768 0) State.reset) = some (.ok (.rational (256 / 1638375))) ∧
    resultOf (exec (.r2v 32768 8) State.reset) = some (.ok (.rational (1048576 / 1638375))) := by
  decide +kernel
/-- V78. -/
theorem test_r2v_range : resultOf (exec (.r2v 0 9) State.reset) = some (.err (.invalidRange 9)) := by
  decide +kernel
/-- V83 and V84: not clamped. -/
theorem test_v2r :
    resultOf (exec (.v2r (-1) 6) State.reset) = some (.ok (.rational (-1638375 / 128))) ∧
    resultOf (exec (.v2r 6 6) State.reset) = some (.ok (.rational (4915125 / 64))) := by
  decide +kernel
/-- V80: not rounded. -/
theorem test_v2r_half : resultOf (exec (.v2r 0 0) State.reset) =
    some (.ok (.rational (65535 / 2))) := by decide +kernel

/-- Error codes (R210). -/
theorem test_error_codes : (Result.code (.ok .unit), Err.code (.transport .cs),
    Err.code (.invalidChannel 9), Err.code (.invalidRange 9), Err.code (.invalidRegister 0)) =
    (0, 1, 2, 3, 4) := rfl

/-! ### Witnesses: each meets all the hypotheses of the statement it is named after -/

/-- The outcome is a next state whose result is `Ok`. -/
def Completes (o : Host.Outcome State Fault Refusal) : Prop :=
  ∃ t v, o = .next t ∧ t.result = some (.ok v)

/-- The outcome is a next state whose result is this error. -/
def EndsWith (o : Host.Outcome State Fault Refusal) (e : Err) : Prop :=
  ∃ t, o = .next t ∧ t.result = some (.err e)

theorem witness_DecodeOfEncodeIsIdentity : Instr.wf (.manAux 9) = true ∧ Instr.wf (.manAux 8) = true ∧
    Instr.wf (.wreg 63 0xFF) = true ∧ Instr.wf (.rreg 64) = true ∧
    Instr.wf (.openInst 0 0 8 (-1) 1) = true := by decide
theorem witness_CallByMnemonicRoundTrips : Instr.wf (.setrange 8 9) = true := by decide
theorem witness_EveryDecodedWordIsTheEncoding :
    decode (.word [0xE0, 0x00]) = .ok (.manAux 8) ∧
    decode (.word [0x7F, 0xFF, 0x00]) = .ok (.wreg 0x3F 0xFF) ∧
    decode (.word [0x00, 0x00, 0x00]) = .ok (.rreg 0) := by decide
/-- One call of each clause, at the first value that does not fit. -/
theorem witness_CallsThatAreNoOperationAreRefused :
    (∀ call, (hosting call).stopped = false ∧ (hosting call).fetch = some call) ∧
    256 ≤ 256 ∧ 65536 ≤ 65536 ∧ (1 / 2 : Rat).den ≠ 1 ∧ (-1 : Rat) < 0 :=
  ⟨fun _ => ⟨rfl, rfl⟩, by decide, by decide, by decide +kernel, by decide +kernel⟩
theorem witness_StepPerformsTheTranscribedCall :
    ((hosting (.word [0x82, 0x00])).stopped = false ∧
      (hosting (.word [0x82, 0x00])).program[0]? = some (.word [0x82, 0x00]) ∧
      decode (.word [0x82, 0x00]) = .ok .stdby) ∧
    (State.reset.stopped = false ∧ State.reset.program[State.reset.pc]? = none) ∧
    (State.reset.returnErr (.invalidRange 9)).result = some (.err (.invalidRange 9)) ∧
    decodeTableWord 16 0x8200 = some .stdby :=
  ⟨⟨rfl, rfl, by decide⟩, ⟨rfl, rfl⟩, rfl, by decide⟩
theorem witness_ProgramCounterAdvancesOnlyOnOk :
    (∃ t, step { hosting (.word [0x82, 0x00]) with answers := silent } = .next t ∧ t.pc = 1) ∧
    ∃ t, step (hosting (.word [0x81, 0x00])) = .refused t := ⟨⟨_, rfl, rfl⟩, _, rfl⟩
theorem witness_ProgramCounter_err :
    EndsWith (step (hosting (.call .man [.num 9]))) (.invalidChannel 9) := ⟨_, rfl, rfl⟩
theorem witness_FirstExchangeIsTheTableWord : encodeWord (.rreg 0x3F) = some [0x7E, 0x00, 0x00] ∧
    State.reset.cfg = defaultConfig ∧ Completes (exec (.rreg 0x3F) (ready .idle (served 7))) :=
  ⟨by decide, rfl, _, _, rfl, rfl⟩
/-- Each clause: the first one at each kind of pre-state of `NOOP`, then the ways into Auto and Program. -/
theorem witness_CommandsFollowTheTransitionTable :
    (commandOf .noop = some .noop ∧ commandOf (.manAux 8) = some (.man 8)) ∧
    (∀ m, Completes (exec .noop (ready m (if m.echoes then echoing else silent)))) ∧ Completes (exec (.manAux 8) (ready .auto echoing)) ∧
    (∃ t, exec .noop (ready .autoReset echoing) = .next t ∧ t.mode = .auto) ∧
    ∃ t, exec (.wreg 0x01 0x00) (ready .auto (writes 1)) = .next t ∧ t.mode = .program :=
  ⟨⟨rfl, rfl⟩, by intro m; cases m <;> exact ⟨_, _, rfl, rfl⟩, ⟨_, _, rfl, rfl⟩, ⟨_, rfl, rfl⟩, _, rfl, rfl⟩
theorem witness_CommandOutsideTheEchoSetCompletes : commandOf .man7 = some (.man 7) ∧
    Mode.echoes .powerDown = false ∧ Mode.echoes .idle = false ∧
    (ready .powerDown [ok, .returns [9, 9], ok]).life = .opened := by decide
theorem witness_CommandInTheEchoSetCompletes : commandOf .rst = some .rst ∧
    Mode.echoes .reset = true ∧ (ready .reset echoing).answers = echoing ∧
    (ready .reset echoing).life = .opened := by decide
/-- Each clause of the echo, and each of the delay. -/
theorem witness_EchoIsDecidedByThePreState :
    Completes (exec .stdby (ready .auto echoing)) ∧ Completes (exec .stdby (ready .program silent)) :=
  ⟨⟨_, _, rfl, rfl⟩, _, _, rfl, rfl⟩
theorem witness_SettlingDelayExactlyOncePerCommandFromPowerDown :
    Completes (exec .pwrdn (ready .powerDown silent)) ∧ Completes (exec .pwrdn (ready .standby silent)) ∧
    EndsWith (exec .pwrdn (ready .powerDown [.fails])) (.transport .cs) :=
  ⟨⟨_, _, rfl, rfl⟩, ⟨_, _, rfl, rfl⟩, _, rfl, rfl⟩
theorem witness_OnlyCommandsWait : commandOf (.wreg 0x02 0x00) = none ∧
    Completes (exec (.wreg 0x02 0x00) (ready .powerDown (writes 1))) := ⟨rfl, _, _, rfl, rfl⟩
theorem witness_ManualSelectOfNoChannelIsInvalidChannel : 8 < 9 ∧ State.reset.life = .opened := by
  decide
theorem witness_AbortedCommandKeepsTheMode : commandOf .noop = some .noop ∧
    EndsWith (exec .noop (ready .manual [ok, .returns [9, 9], .fails]))
      (.transport (.exchange [0x00, 0x00])) := ⟨rfl, _, rfl, rfl⟩
/-- The five clauses: two failures in each of the first two exchanges, three in the windows' ends. -/
theorem witness_CommandFailsAtEachTransportCall : commandOf .man0 = some (.man 0) ∧
    (ready .auto [.fails]).answers = .fails :: [] ∧
    (ready .auto [ok, .returns [1]]).answers = ok :: .returns [1] :: [] ∧ ([1] : List Byte).length ≠ 2 ∧
    Mode.echoes .auto = true ∧
    (ready .auto [ok, .returns [9, 9], .fails]).answers = ok :: .returns [9, 9] :: .fails :: [] ∧
    (ready .auto [ok, .returns [9, 9], .returns [9, 9], .fails]).answers =
      ok :: .returns [9, 9] :: .returns [9, 9] :: .fails :: [] ∧
    Mode.echoes .idle = false ∧ (ready .idle [ok, .returns [9, 9], .fails]).life = .opened := by decide
/-- The first and last writable addresses of the default map, and a write-only one. -/
theorem witness_RegisterWriteCompletes : (0x3C ≤ 0x3F ∧ accessOf 0x01 defaultConfig.regmap = .rw ∧
      accessOf 0x3C defaultConfig.regmap = .rw ∧ accessOf 0 writeOnlyZero.regmap = .wo) ∧
    (ready .idle (served 7)).answers = served 7 := by decide
theorem witness_RegisterReadCompletes : (0x3F ≤ 0x3F ∧ accessOf 0x3F defaultConfig.regmap = .ro ∧
      accessOf 0x01 defaultConfig.regmap = .rw) ∧
    (ready .idle (served 7)).answers = served 7 := by decide
theorem witness_RegisterCheckRaisesInvalidRegister : 0x3F < 0x40 ∧
    accessOf 0x00 defaultConfig.regmap = .absent ∧ accessOf 0x10 defaultConfig.regmap = .ro ∧
    accessOf 0 writeOnlyZero.regmap = .wo := by decide
theorem witness_RegisterWindowHoldsOneExchange : isRegisterOp (.setseqpd 0xFF) = true ∧
    Completes (exec (.setseqpd 0xFF) (ready .idle (writes 2))) ∧
    Completes (exec (.rreg 0x10) (ready .idle (writes 1))) ∧
    Completes (exec .noop (ready .auto echoing)) :=
  ⟨rfl, ⟨_, _, rfl, rfl⟩, ⟨_, _, rfl, rfl⟩, _, _, rfl, rfl⟩
theorem witness_WorkedWriteFrame : Completes (exec (.wreg 0x05 0x06) (ready .idle (writes 1))) ∧
    Completes (exec (.setrange 0 6) (ready .idle (writes 1))) := ⟨⟨_, _, rfl, rfl⟩, _, _, rfl, rfl⟩
theorem witness_RegisterAccessFailsAtEachTransportCall : registerOk defaultConfig 0x01 .write = true ∧
    registerOk defaultConfig 0x3F .read = true ∧ ([] : List Byte).length ≠ 3 ∧
    (ready .idle [ok, .returns [], ok]).answers = ok :: .returns [] :: [ok] ∧
    (ready .idle [ok, .returns [1, 2, 3], .fails]).answers =
      ok :: .returns [1, 2, 3] :: .fails :: [] := by decide
/-- The helpers at the ends of their operand ranges. -/
theorem witness_HelperCompletes :
    helperWrites defaultConfig (.setrange 7 8) = some [(0x0C, 0x0F)] ∧
    helperWrites defaultConfig (.setrange 0 0) = some [(0x05, 0x00)] ∧
    (helperWrites defaultConfig (.setgrange 8)).isSome = true ∧
    helperWrites defaultConfig (.setseqpd 0xFF) = some [(0x01, 0xFF), (0x02, 0x00)] ∧
    allWritable defaultConfig [(0x01, 0xFF), (0x02, 0x00)] = true ∧
    (ready .idle (servedAnswers [⟨[], [0, 0, 1], []⟩, ⟨[], [0, 0, 2], []⟩])).answers =
      servedAnswers [⟨[], [0, 0, 1], []⟩, ⟨[], [0, 0, 2], []⟩] ++ [] := by decide
theorem witness_HelperIsItsExpansion :
    expansion defaultConfig (.setseqpd 0x03) = some [.setseq 0x03, .setpd 0xFC] ∧
    helperWrites defaultConfig (.setseqpd 0x03) = some [(0x01, 0x03), (0x02, 0xFC)] ∧
    allWritable defaultConfig [(0x01, 0x03), (0x02, 0xFC)] = true ∧
    allWritable onlySequence [(0x01, 0x03), (0x02, 0xFC)] = false ∧
    expansion defaultConfig (.setrange 8 0) = none ∧ expansion defaultConfig (.setgrange 9) = none ∧
    (ready .idle []).life = .opened := by decide
theorem witness_HelperFramesUnderTheDefaults : State.reset.cfg = defaultConfig ∧
    Completes (exec (.setrange 7 8) (ready .idle (writes 1))) ∧
    Completes (exec (.setgrange 0) (ready .idle (writes 8))) ∧
    Completes (exec (.setseq 0xFF) (ready .idle (writes 1))) ∧
    Completes (exec (.setpd 0x00) (ready .idle (writes 1))) ∧
    Completes (exec (.setseqpd 0xA5) (ready .idle (writes 2))) :=
  ⟨rfl, ⟨_, _, rfl, rfl⟩, ⟨_, _, rfl, rfl⟩, ⟨_, _, rfl, rfl⟩, ⟨_, _, rfl, rfl⟩, _, _, rfl, rfl⟩
/-- Aborted in the first write and in the second. -/
theorem witness_AbortedHelperKeepsItsEarlierWrites :
    helperWrites defaultConfig (.setseqpd 0x03) = some [(0x01, 0x03), (0x02, 0xFC)] ∧
    EndsWith (exec (.setseqpd 0x03) (ready .auto [.fails])) (.transport .cs) ∧
    EndsWith (exec (.setseqpd 0x03) (ready .auto (served 1 ++ [.fails]))) (.transport .cs) :=
  ⟨by decide, ⟨_, rfl, rfl⟩, _, rfl, rfl⟩
theorem witness_ReissuedHelperSendsTheSameFrames :
    (helperWrites defaultConfig (.setgrange 1)).isSome = true ∧
    Completes (exec (.setgrange 1) (ready .idle (writes 8))) ∧
    Completes (exec (.setgrange 1) { ready .manual (writes 9) with cs := .unknown }) :=
  ⟨rfl, ⟨_, _, rfl, rfl⟩, _, _, rfl, rfl⟩
theorem witness_HelperOperandErrors : 7 < 8 ∧ 7 ≤ 7 ∧ 8 < 9 ∧ State.reset.life = .opened ∧
    helperWrites onlySequence (.setseqpd 0x03) = some [(0x01, 0x03), (0x02, 0xFC)] ∧
    [((0x01 : Nat), (0x03 : Byte)), (0x02, 0xFC)][1]? = some (0x02, 0xFC) ∧
    allWritable onlySequence [(0x01, 0x03)] = true ∧ registerOk onlySequence 0x02 .write = false ∧
    registerOk noRegisters 0x01 .write = false := by decide
theorem witness_OpenCompletes : (shut [ok, ok, ok]).life = .closed ∧ (0 : Rat) < 512 / 125 ∧
    (shut [ok, ok, ok]).answers = ok :: ok :: ok :: [] := by decide +kernel
theorem witness_OpenFailsAtEachTransportCall : (0 : Rat) < 1 ∧ (shut [.fails]).life = .closed ∧
    (shut [.fails]).answers = .fails :: [] ∧ (shut [ok, .fails]).answers = ok :: .fails :: [] ∧
    (shut [ok, ok, .fails]).answers = ok :: ok :: .fails :: [] := by decide +kernel
/-- The boundary of the reference voltage is 0. -/
theorem witness_LifecycleRefusals : (shut []).life = .closed ∧ Instr.getfeat ≠ .close ∧
    isOpenOp .getfeat = false ∧ State.reset.life = .opened ∧ (0 : Rat) ≤ 0 := by decide +kernel
theorem witness_CloseCompletes : (ready .auto [ok]).life = .opened ∧
    (ready .auto [ok]).answers = ok :: [] ∧ (ready .auto [.fails]).answers = .fails :: [] ∧
    (shut []).life = .closed := by decide
theorem witness_AccessorsComplete : State.reset.life = .opened := rfl
/-- An operation of each kind, served; and one that no answer serves. -/
theorem witness_EveryServedOperationCompletes :
    (ready .idle (writes 8)).life = lifeFor (.setgrange 8) ∧ (shut [ok, ok, ok]).life = lifeFor (.openInst 0 0 8 1 1) ∧
    operandsLegal defaultConfig (.setgrange 8) = true ∧ operandsLegal defaultConfig (.manAux 8) = true ∧
    operandsLegal defaultConfig (.v2r 0 8) = true ∧
    operandsLegal defaultConfig (.openInst 0 0 8 1 1) = true ∧
    serves (replyLengths defaultConfig .idle (.setgrange 8)) (writes 8) = true ∧
    serves (replyLengths defaultConfig .auto (.manAux 8)) echoing = true ∧
    serves (replyLengths defaultConfig .powerDown (.manAux 8)) silent = true ∧
    serves (replyLengths defaultConfig .idle (.openInst 0 0 8 1 1)) [ok, ok, ok] = true ∧
    serves (replyLengths defaultConfig .idle .close) [ok] = true ∧
    serves (replyLengths defaultConfig .idle (.rreg 1)) (served 7) = true ∧
    serves (replyLengths defaultConfig .idle (.v2r 0 8)) [] = true ∧
    serves (replyLengths defaultConfig .idle (.rreg 1)) [] = false := by decide +kernel
theorem witness_RawToVoltsCompletes : (8 : Nat) = (rangeIndex .r8).val ∧ State.reset.life = .opened ∧
    State.reset.cfg.scaleArith = .exact := by decide
theorem witness_VoltsToRawCompletes : (0 : Nat) = (rangeIndex .r0).val ∧ State.reset.life = .opened ∧
    State.reset.cfg.scaleArith = .exact := by decide
theorem witness_ScalingRangeErrors : 8 < 9 ∧ State.reset.life = .opened := by decide
theorem witness_ScalingRoundTripIsExact : (0 : Rat) < 1 / 1000 := by decide +kernel
theorem witness_RawToVoltsIsAffineIncreasingOntoTheRange : (0 : Rat) < 512 / 125 ∧ 65534 < 65535 ∧
    65535 ≤ 65535 := by decide +kernel
theorem witness_HostOnlyFrame : isHostOnly (.r2v 0xFFFF 8) = true ∧
    Completes (exec (.r2v 0xFFFF 8) State.reset) ∧
    EndsWith (exec (.v2r 0 9) State.reset) (.invalidRange 9) :=
  ⟨rfl, ⟨_, _, rfl, rfl⟩, _, rfl, rfl⟩
theorem witness_DeviceOperationFrame : isHostOnly (.rreg 1) = false ∧ isOpenOp (.rreg 1) = false ∧
    Instr.rreg 1 ≠ .close ∧ Completes (exec (.rreg 1) (ready .idle (writes 1))) :=
  ⟨rfl, rfl, by decide, _, _, rfl, rfl⟩
theorem witness_LifecycleFrame : Completes (exec .close (ready .idle [ok])) ∧
    Completes (exec .close (shut [])) ∧
    (match exec (.openInst 0 0 8 1 1) (shut [ok, ok, .fails]) with
      | .next t => t.result
      | _ => none) = some (.err (.transport .cs)) :=
  ⟨⟨_, _, rfl, rfl⟩, ⟨_, _, rfl, rfl⟩, by decide +kernel⟩
theorem witness_StepOnlyExtendsTheTrace :
    Completes (step { hosting (.word [0x7E, 0x00, 0x00]) with answers := writes 1 }) :=
  ⟨_, _, rfl, rfl⟩
/-- A command and a register access that change the mode, and a re-initialization. -/
theorem witness_ModeChangesOnlyByItsTwoCauses : State.reset.life = .opened ∧
    (∃ t, exec .rst (ready .idle silent) = .next t ∧ t.mode ≠ .idle) ∧
    (∃ t, exec (.rreg 1) (ready .idle (writes 1)) = .next t ∧ t.mode ≠ .idle) ∧
    (∃ t, exec (.setgrange 1) (ready .idle (writes 1 ++ [.fails])) = .next t ∧ t.mode ≠ .idle ∧
      t.result = some (.err (.transport .cs))) ∧
    EndsWith (exec (.wreg 1 1) (ready .idle [.fails])) (.transport .cs) ∧
    (match exec (.openInst 0 0 8 1 1) { shut [ok, ok, ok] with mode := .auto } with
      | .next t => decide (t.mode ≠ .auto)
      | _ => false) = true :=
  ⟨rfl, ⟨_, rfl, by decide⟩, ⟨_, rfl, by decide⟩, ⟨_, rfl, by decide, rfl⟩, ⟨_, rfl, rfl⟩,
    by decide +kernel⟩
theorem witness_TransportFailureIsNeverRetried :
    EndsWith (exec .close (ready .idle [.fails])) (.transport .closeBus) ∧
    Event.isFail (.closed .fail) = true := ⟨⟨_, rfl, rfl⟩, rfl⟩
theorem witness_OperandErrorsWriteNothing :
    EndsWith (exec (.setseqpd 3) { ready .idle [] with cfg := onlySequence }) (.invalidRegister 2) ∧
    EndsWith (exec (.wreg 0x40 0) State.reset) (.invalidRegister 0x40) ∧
    ∀ c, Err.invalidRegister 0x40 ≠ .transport c := ⟨⟨_, rfl, rfl⟩, ⟨_, rfl, rfl⟩, by simp⟩
theorem witness_HangHasNoNextState : (ready .idle [.hangs]).life = .opened ∧
    (ready .idle [.hangs]).answers = .hangs :: [] ∧ operandsLegal defaultConfig (.setseq 0) = true ∧
    (shut [.hangs]).life = .closed ∧ (0 : Rat) < 1 ∧ Completes (exec .noop (ready .idle [ok, .returns [1, 2], ok, .hangs])) ∧
    exec .noop (ready .idle [ok, .hangs]) = .fault .transportHang :=
  ⟨rfl, rfl, by decide, rfl, by decide +kernel, ⟨_, _, rfl, rfl⟩, rfl⟩
theorem witness_StepKeepsTheInvariant :
    Inv { hosting (.word [0x85, 0x00]) with answers := silent } ∧
    Completes (step { hosting (.word [0x85, 0x00]) with answers := silent }) :=
  ⟨⟨fun _ => by decide +kernel, fun _ => rfl, by decide +kernel, by decide +kernel⟩, _, _, rfl, rfl⟩
/-- Two open instances on one bus and one chip-select line, and a third on another line. -/
def clashing : Fleet :=
  [ready .idle [ok], { ready .idle [ok] with transport := 1 },
    { hosting (.call .close []) with answers := [ok], csLine := 9, transport := 2 }]
theorem witness_InstancesShareNoState :
    (∃ g, fleetStep 0 [{ hosting (.word [0x85, 0x00]) with answers := silent },
      { State.unopened with transport := 1 }] = .next g) ∧
    (∃ g, fleetStep 1 (clashing.drop 1) = .next g) ∧
    fleetStep 0 [State.reset, State.unopened] = .refused .sharedTransport ∧
    (clashing.map State.transport).Nodup ∧
    (∃ a b, clashing[0]? = some a ∧ clashing[1]? = some b ∧ a.life = .opened ∧ b.life = .opened ∧
      a.busId = b.busId ∧ a.csLine = b.csLine) :=
  ⟨⟨_, rfl⟩, ⟨_, rfl⟩, rfl, by decide, _, _, rfl, rfl, rfl, rfl, rfl, rfl⟩
/-- R232, I12: neither a third instance of such a fleet steps, nor one of the pair. -/
theorem test_fleet_clash : fleetStep 2 clashing = .refused .sharedChipSelect ∧
    fleetStep 0 (clashing.map fun s => s.load [.call .close []]) = .refused .sharedChipSelect :=
  ⟨rfl, rfl⟩

end Sys2Proof.Tests
end

section
/-! The frames of completed register writes, direct and through a helper (30_encoding.md R79, R80). -/

namespace Sys2Proof.Machine

variable {i : Instr} {s t : State} {r : Value} {addr : Nat} {v : Byte} {ws : List (Nat × Byte)}

/-- The one exchange of a `WREG` that returned `Ok` carries its write frame (42_registers.md R152). -/
theorem exec_wreg_ok_outBytes (hx : exec (.wreg addr v) s = .next t)
    (hr : t.result = some (.ok r)) :
    ∃ es, t.trace = s.trace ++ es ∧ outBytes es = [writeFrame addr v] := by
  obtain ⟨-, hx⟩ := whenOpen_eq_next.1 hx
  rcases Attempt.finish_eq_next.1 hx with ⟨b, u, hw, rfl⟩ | ⟨e, u, -, rfl⟩
  · obtain ⟨-, reply, -, -, m⟩ := writeReg_done hw
    exact ⟨_, m.trace, rfl⟩
  · simp at hr

/-- A helper that returned `Ok` sent the write frame of each of its writes, in order, and nothing
else (43_channel_config.md R172 to R176). -/
theorem exec_helper_ok_outBytes (hi : helperWrites s.cfg i = some ws) (hx : exec i s = .next t)
    (hr : t.result = some (.ok r)) :
    ∃ es, t.trace = s.trace ++ es ∧ outBytes es = ws.map fun w => writeFrame w.1 w.2 := by
  rw [exec_helper hi, whenOpen_eq_next] at hx
  rcases runWrites_next hx.2 with ⟨a, -, rfl⟩ | ⟨-, ⟨u, hw, rfl⟩ | ⟨e, u, -, rfl⟩⟩
  · simp at hr
  · obtain ⟨-, rs, hlen, -, m⟩ := writeRegs_done hw
    exact ⟨_, m.trace, writeEvents_outBytes hlen⟩
  · simp at hr

/-- R80's worked frame: the address shifted left by 1, OR'd with the write bit. -/
theorem writeFrame_five_six : writeFrame 0x05 0x06 = [0x0B, 0x06, 0x00] := by decide

/-- Under the default parameters `SETRANGE 0, R6` is the worked write of R80. -/
theorem helperWrites_setrange_zero_six :
    helperWrites defaultConfig (.setrange 0 6) = some [(0x05, 0x06)] := by decide

/-- Settles O25: a completed write sends its write frame, directly or through the helper whose one
write it is, and that frame is the worked one. -/
theorem workedWriteFrame : Obligations.WorkedWriteFrame := by
  refine ⟨fun s t r hx hr => ?_, by decide, fun s t r hcfg hx hr => ?_⟩
  · exact writeFrame_five_six ▸ exec_wreg_ok_outBytes hx hr
  · have hi : helperWrites s.cfg (.setrange 0 6) = some [(0x05, 0x06)] :=
      hcfg ▸ helperWrites_setrange_zero_six
    exact writeFrame_five_six ▸ exec_helper_ok_outBytes hi hx hr

end Sys2Proof.Machine
end

section
/-! The mode an operation leaves, and the reply of a completed command (41_commands.md R121 to R125). -/

namespace Sys2Proof.Machine

variable {i : Instr} {s t : State} {v : Value} {cmd : Cmd} {pre : Mode}

/-! ### The mode's tables -/

theorem Mode.next_eq_auto (h : pre.next cmd = .auto) :
    pre = .auto ∨ (pre = .autoReset ∧ cmd = .noop) := by
  cases cmd with
  | noop => cases pre <;> simp [Mode.next, Mode.afterNoop] at h ⊢
  | stdby | pwrdn | rst | autorst | man ch => simp [Mode.next] at h

theorem Mode.next_ne_program : pre.next cmd ≠ .program := by
  cases cmd with
  | noop => cases pre <;> simp [Mode.next, Mode.afterNoop]
  | stdby | pwrdn | rst | autorst | man ch => simp [Mode.next]

theorem Mode.afterNoop_of_ne (hr : pre ≠ .reset) (hp : pre ≠ .program) (ha : pre ≠ .autoReset) :
    pre.afterNoop = pre := by
  cases pre <;> simp [Mode.afterNoop] at hr hp ha ⊢

theorem Mode.echoes_eq_true_iff :
    pre.echoes = true ↔ (pre = .reset ∨ pre = .manual ∨ pre = .auto ∨ pre = .autoReset) := by
  cases pre <;> simp [Mode.echoes]

theorem Mode.echoes_eq_false_iff :
    pre.echoes = false ↔ (pre = .idle ∨ pre = .standby ∨ pre = .powerDown ∨ pre = .program) := by
  cases pre <;> simp [Mode.echoes]

theorem commandOf_eq_noop (h : commandOf i = some .noop) : i = .noop := by
  cases i <;> simp [commandOf] at h ⊢

/-! ### What a completed command leaves -/

/-- A command that returned `Ok` completed its transaction: its events, its next mode and its value. -/
theorem exec_command_ok (hc : commandOf i = some cmd) (hx : exec i s = .next t)
    (hr : t.result = some (.ok v)) :
    ∃ in1 in2 : List Byte, (s.mode.echoes = true → in2.length = 2) ∧
      v = .u16 (if s.mode.echoes then msbFirst (in2.getD 0 0) (in2.getD 1 0) else 0) ∧
      t.mode = s.mode.next cmd ∧
      t.trace = s.trace ++ commandEvents s.cfg s.mode cmd in1 in2 := by
  obtain ⟨-, ⟨w, u, hd, rfl⟩ | ⟨e, u, -, rfl⟩⟩ := exec_command_next hc hx
  · obtain ⟨in1, in2, -, hl2, rfl, m⟩ := cmdTxn_done hd
    obtain rfl : Value.u16 _ = v := by simpa using hr
    exact ⟨in1, in2, hl2, rfl, m.mode, m.trace⟩
  · simp at hr

/-- The replies of a completed command: the second one where the pre-state echoes, and no other. -/
theorem inBytes_commandEvents (cfg : Config) (pre : Mode) (cmd : Cmd) (in1 in2 : List Byte) :
    inBytes (commandEvents cfg pre cmd in1 in2) =
      some in1 :: if pre.echoes then [some in2] else [] := by
  cases pre <;> rfl

/-! ### The mode any operation leaves -/

/-- A register operation leaves the mode it found, or Program (42_registers.md R152, R156). -/
theorem exec_registerOp_mode (h : isRegisterOp i = true) (hx : exec i s = .next t) :
    t.mode = s.mode ∨ t.mode = .program := by
  obtain ⟨-, ⟨a, b, -, ⟨_, u, hd, rfl⟩ | ⟨e, u, hd, rfl⟩⟩ |
    ⟨a, -, ⟨_, u, hd, rfl⟩ | ⟨e, u, hd, rfl⟩⟩ |
    ⟨ws, hne, -, hall, hd⟩ | ⟨e, -, -, rfl⟩⟩ := exec_registerOp_next h hx
  · obtain ⟨-, r, -, -, m⟩ := writeReg_done hd
    exact .inr m.mode
  · obtain ⟨-, -, rfl⟩ | ⟨-, es, c, -, -, m⟩ := writeReg_raised hd
    · exact .inl rfl
    · exact .inl m.mode
  · obtain ⟨-, r, -, -, m⟩ := readReg_done hd
    exact .inr m.mode
  · obtain ⟨-, -, rfl⟩ | ⟨-, es, c, -, -, m⟩ := readReg_raised hd
    · exact .inl rfl
    · exact .inl m.mode
  · obtain ⟨u, hd, rfl⟩ | ⟨e, u, hd, rfl⟩ := hd
    · obtain ⟨-, rs, -, -, m⟩ := writeRegs_done hd
      exact .inr (by simpa [hne] using m.mode)
    · obtain ⟨es, m, l, hm, hmode⟩ := writeRegs_moved hall (.inr hd)
      simpa [hm.mode] using hmode
  · exact .inl rfl

/-- Whatever ends with a next state kept the mode, or is a command that took its transition, a
register operation that left Program, or an `OPEN` that left Idle (10_state.md R25). -/
theorem exec_next_mode (hx : exec i s = .next t) :
    t.mode = s.mode ∨ (∃ cmd, commandOf i = some cmd ∧ t.mode = s.mode.next cmd) ∨
      (isRegisterOp i = true ∧ t.mode = .program) ∨ (isOpenOp i = true ∧ t.mode = .idle) := by
  rcases instr_kinds i with ⟨cmd, hc⟩ | ⟨ch, rfl, hch⟩ | h | h | h | rfl
  · obtain ⟨-, ⟨w, u, hd, rfl⟩ | ⟨e, u, hd, rfl⟩⟩ := exec_command_next hc hx
    · obtain ⟨in1, in2, -, -, -, m⟩ := cmdTxn_done hd
      exact .inr (.inl ⟨cmd, hc, m.mode⟩)
    · obtain ⟨es, c, -, -, m⟩ := cmdTxn_raised hd
      exact .inl m.mode
  · obtain ⟨-, rfl⟩ := exec_manAux_illegal_next hch hx
    exact .inl rfl
  · exact (exec_registerOp_mode h hx).imp_right fun hp => .inr (.inl ⟨h, hp⟩)
  · obtain ⟨-, ⟨v, rfl⟩ | ⟨n, -, rfl⟩⟩ := exec_hostOnly_next h hx
    · exact .inl rfl
    · exact .inl rfl
  · cases i <;> simp only [isOpenOp, Bool.false_eq_true] at h
    obtain ⟨-, -, ⟨u, hd, rfl⟩ | ⟨e, u, hd, rfl⟩⟩ := exec_open_next hx
    · obtain ⟨u, -, rfl⟩ := openTxn_done hd
      exact .inr (.inr (.inr ⟨rfl, rfl⟩))
    · obtain ⟨es, c, -, -, m⟩ := openTxn_raised hd
      exact .inl m.mode
  · obtain ⟨-, rfl⟩ | ⟨-, ⟨u, hd, rfl⟩ | ⟨e, u, hd, rfl⟩⟩ := exec_close_next hx
    · exact .inl rfl
    · obtain ⟨u, m, rfl⟩ := closeTxn_done hd
      exact .inl m.mode
    · obtain ⟨-, u, m, rfl⟩ := closeTxn_raised hd
      exact .inl m.mode

/-- Auto is entered by `NOOP` from AutoReset alone. -/
theorem exec_enters_auto (hx : exec i s = .next t) (ht : t.mode = .auto) (hs : s.mode ≠ .auto) :
    i = .noop ∧ s.mode = .autoReset := by
  rcases exec_next_mode hx with h | ⟨cmd, hc, h⟩ | ⟨-, h⟩ | ⟨-, h⟩ <;> rw [ht] at h
  · exact absurd h.symm hs
  · obtain ha | ⟨ha, rfl⟩ := Mode.next_eq_auto h.symm
    · exact absurd ha hs
    · exact ⟨commandOf_eq_noop hc, ha⟩
  · cases h
  · cases h

/-- Program is entered by register operations alone. -/
theorem exec_enters_program (hx : exec i s = .next t) (ht : t.mode = .program)
    (hs : s.mode ≠ .program) : isRegisterOp i = true := by
  rcases exec_next_mode hx with h | ⟨cmd, -, h⟩ | ⟨hi, -⟩ | ⟨-, h⟩
  · exact absurd (h.symm.trans ht) hs
  · exact absurd (h.symm.trans ht) Mode.next_ne_program
  · exact hi
  · cases h.symm.trans ht

/-! ### The obligations -/

/-- Settles O11: a completed command takes its transition, and of all operations only the `NOOP` from
AutoReset and the register operations lead into Auto and Program. -/
theorem commandsFollowTheTransitionTable : Obligations.CommandsFollowTheTransitionTable := by
  refine ⟨fun i cmd s t v hc hx hr => ?_, fun i s t => exec_enters_auto,
    fun i s t => exec_enters_program⟩
  obtain ⟨in1, in2, -, -, hm, -⟩ := exec_command_ok hc hx hr
  rw [hm]
  refine ⟨?_, ?stdby, ?pwrdn, ?rst, ?autorst, ?man⟩
  · rintro rfl
    refine ⟨?_, fun h => by rw [h]; rfl, Mode.afterNoop_of_ne⟩
    rintro (h | h) <;> rw [h] <;> rfl
  case man =>
    rintro ch rfl
    rfl
  all_goals
    rintro rfl
    rfl

/-- Settles O14: the replies and the value of a completed command, with `echoes` decided. -/
theorem echoIsDecidedByThePreState : Obligations.EchoIsDecidedByThePreState := by
  intro i cmd s t v hc hx hr
  obtain ⟨in1, in2, hl, rfl, -, htrace⟩ := exec_command_ok hc hx hr
  refine ⟨_, htrace, fun hs => ?_, fun hs => ?_⟩
  · have he := Mode.echoes_eq_true_iff.2 hs
    obtain ⟨hi, lo, rfl⟩ := List.length_eq_two.1 (hl he)
    exact ⟨in1, hi, lo, msbFirst hi lo, by simp [inBytes_commandEvents, he], by simp [he],
      msbFirst_toNat hi lo⟩
  · have he := Mode.echoes_eq_false_iff.2 hs
    exact ⟨in1, by simp [inBytes_commandEvents, he], by simp [he]⟩

end Sys2Proof.Machine
end

section
/-! The chip-select windows of completed register operations and of completed commands
(42_registers.md R157). -/

namespace Sys2Proof.Machine

variable {i : Instr} {s t : State} {v : Value} {cmd : Cmd}

/-! ### The windows of register operations -/

/-- The exchanges of the register writes of a list, each served: the frame out, the reply in. -/
def writeExchanges (ws : List (Nat × Byte)) (rs : List Served) : List (List Byte × List Byte) :=
  (ws.zip rs).map fun p => (writeFrame p.1.1 p.1.2, p.2.onExchange)

/-- The register writes of a list are one window after another, each around its own exchange. -/
theorem writeEvents_eq_flatMap (ws : List (Nat × Byte)) (rs : List Served) :
    writeEvents ws rs = (writeExchanges ws rs).flatMap fun w => registerEvents w.1 w.2 := by
  induction ws generalizing rs with
  | nil => rfl
  | cons w ws ih =>
    cases rs with
    | nil => rfl
    | cons r rs => exact congrArg (registerEvents (writeFrame w.1 w.2) r.onExchange ++ ·) (ih rs)

theorem writeExchanges_ne_nil {ws : List (Nat × Byte)} {rs : List Served} (hne : ws ≠ [])
    (hlen : rs.length = ws.length) : writeExchanges ws rs ≠ [] := by
  have hrs : rs ≠ [] := List.ne_nil_of_length_pos (hlen ▸ List.length_pos_iff.2 hne)
  simp [writeExchanges, hne, hrs]

theorem writeExchanges_length_three {ws : List (Nat × Byte)} {rs : List Served}
    (hrs : ∀ r ∈ rs, r.onExchange.length = 3) {w : List Byte × List Byte}
    (hw : w ∈ writeExchanges ws rs) : w.1.length = 3 ∧ w.2.length = 3 := by
  obtain ⟨⟨x, r⟩, hp, rfl⟩ := List.mem_map.1 hw
  exact ⟨rfl, hrs r (List.of_mem_zip hp).2⟩

/-- A register operation that returned `Ok` appended one window for each of its transactions. -/
theorem exec_registerOp_ok_windows (h : isRegisterOp i = true) (hx : exec i s = .next t)
    (hr : t.result = some (.ok v)) :
    ∃ windows : List (List Byte × List Byte),
      (∀ w ∈ windows, w.1.length = 3 ∧ w.2.length = 3) ∧ windows ≠ [] ∧
      t.trace = s.trace ++ windows.flatMap fun w => registerEvents w.1 w.2 := by
  obtain ⟨-, ⟨addr, x, -, ⟨_, u, hd, rfl⟩ | ⟨e, u, -, rfl⟩⟩ |
    ⟨addr, -, ⟨_, u, hd, rfl⟩ | ⟨e, u, -, rfl⟩⟩ |
    ⟨ws, hne, -, -, ⟨u, hd, rfl⟩ | ⟨e, u, -, rfl⟩⟩ | ⟨e, -, -, rfl⟩⟩ := exec_registerOp_next h hx
  · obtain ⟨-, reply, hl, -, m⟩ := writeReg_done hd
    exact ⟨[(writeFrame addr x, reply)], by simp [writeFrame, hl], by simp, by simpa using m.trace⟩
  · simp at hr
  · obtain ⟨-, reply, hl, -, m⟩ := readReg_done hd
    exact ⟨[(readFrame addr, reply)], by simp [readFrame, hl], by simp, by simpa using m.trace⟩
  · simp at hr
  · obtain ⟨-, rs, hlen, hrs, m⟩ := writeRegs_done hd
    exact ⟨writeExchanges ws rs, fun w => writeExchanges_length_three hrs,
      writeExchanges_ne_nil hne hlen, writeEvents_eq_flatMap ws rs ▸ m.trace⟩
  · simp at hr
  · simp at hr

/-! ### The window of a command -/

/-- The exchanges of a completed command: its frame, and the echo where the pre-state echoes. -/
def commandExchanges (cfg : Config) (pre : Mode) (cmd : Cmd) (in1 in2 : List Byte) :
    List (List Byte × List Byte) :=
  (commandFrame cfg cmd, in1) :: if pre.echoes then [(echoFrame, in2)] else []

/-- A command's events are one window around its exchanges, then the settling delay from PowerDown. -/
theorem commandEvents_eq_window (cfg : Config) (pre : Mode) (cmd : Cmd) (in1 in2 : List Byte) :
    commandEvents cfg pre cmd in1 in2 =
      [.cs .assert .done] ++
        ((commandExchanges cfg pre cmd in1 in2).map fun x => Event.xfer x.1 (some x.2)) ++
        [.cs .deassert .done] ++ if pre = .powerDown then [.delay cfg.settleDelayMs] else [] := by
  cases he : pre.echoes <;> simp [commandEvents, commandExchanges, he, echoFrame]

theorem commandExchanges_length (cfg : Config) (pre : Mode) (cmd : Cmd) (in1 in2 : List Byte) :
    (commandExchanges cfg pre cmd in1 in2).length = if pre.echoes then 2 else 1 := by
  cases he : pre.echoes <;> simp [commandExchanges, he]

theorem commandExchanges_length_two {cfg : Config} {pre : Mode} {in1 in2 : List Byte}
    (h1 : in1.length = 2) (h2 : pre.echoes = true → in2.length = 2) {x : List Byte × List Byte}
    (hx : x ∈ commandExchanges cfg pre cmd in1 in2) : x.1.length = 2 ∧ x.2.length = 2 := by
  rcases List.mem_cons.1 hx with rfl | hx
  · exact ⟨commandFrame_length cfg cmd, h1⟩
  · obtain ⟨he, rfl⟩ : pre.echoes = true ∧ x = (echoFrame, in2) := by simpa using hx
    exact ⟨rfl, h2 he⟩

/-- A command that returned `Ok` appended one window around one or two exchanges of two bytes. -/
theorem exec_command_ok_window (hc : commandOf i = some cmd) (hx : exec i s = .next t)
    (hr : t.result = some (.ok v)) :
    ∃ (exchanges : List (List Byte × List Byte)) (after : List Event),
      (∀ x ∈ exchanges, x.1.length = 2 ∧ x.2.length = 2) ∧
      (exchanges.length = 1 ∨ exchanges.length = 2) ∧
      (after = [] ∨ after = [.delay s.cfg.settleDelayMs]) ∧
      t.trace = s.trace ++ [.cs .assert .done] ++
        (exchanges.map fun x => Event.xfer x.1 (some x.2)) ++ [.cs .deassert .done] ++ after := by
  obtain ⟨-, ⟨w, u, hd, rfl⟩ | ⟨e, u, -, rfl⟩⟩ := exec_command_next hc hx
  · obtain ⟨in1, in2, h1, h2, -, m⟩ := cmdTxn_done hd
    have htrace := m.trace
    rw [commandEvents_eq_window] at htrace
    refine ⟨_, _, fun x => commandExchanges_length_two h1 h2, ?_, ?_, by
      simpa only [State.returnOk_trace, List.append_assoc] using htrace⟩
    · rw [commandExchanges_length]
      exact (ite_eq_or_eq _ 2 1).symm
    · exact (ite_eq_or_eq _ _ _).symm
  · simp at hr

/-- Settles O24: register operations append a window for each transaction, and a command one of its own. -/
theorem registerWindowHoldsOneExchange : Obligations.RegisterWindowHoldsOneExchange :=
  ⟨fun _ _ _ _ => exec_registerOp_ok_windows, fun _ _ _ _ _ => exec_command_ok_window⟩

end Sys2Proof.Machine
end

section
/-! The frames of a re-issued helper (43_channel_config.md R177). -/

namespace Sys2Proof.Machine

/-- Settles O31: the frames of a completed helper are the write frames of its writes, and the
parameters alone decide those. -/
theorem reissuedHelperSendsTheSameFrames : Obligations.ReissuedHelperSendsTheSameFrames := by
  intro i s t s' t' v v' hsome hcfg hx hr hx' hr'
  obtain ⟨ws, hi⟩ := Option.isSome_iff_exists.1 hsome
  have hi' : helperWrites s'.cfg i = some ws := hcfg ▸ hi
  obtain ⟨es, htrace, hout⟩ := exec_helper_ok_outBytes hi hx hr
  obtain ⟨es', htrace', hout'⟩ := exec_helper_ok_outBytes hi' hx' hr'
  exact ⟨es, es', htrace, htrace', hout.trans hout'.symm⟩

end Sys2Proof.Machine
end

section
/-! How any operation ends, `OPEN` and `CLOSE` included, and what its appended events say of its
result (60_exceptions.md R211, R215). -/

namespace Sys2Proof.Machine

variable {i : Instr} {s t u : State} {es : List Event} {c : FailedCall}

/-! ### How every operation ends -/

/-- An aborted `OPEN` ends with the failed call's event, after calls that returned. -/
theorem OpenAbort.last {b d z : Rat} (h : OpenAbort b d z es c) :
    ∃ fs f, es = fs ++ [f] ∧ f.failedCall = some c ∧ ∀ x ∈ fs, x.isFail = false := by
  cases h with
  | onOpen => exact ⟨[], _, rfl, rfl, by simp⟩
  | onConfigure => exact ⟨[_], _, rfl, rfl, by simp [Event.isFail]⟩
  | onDeassert => exact ⟨[_, _], _, rfl, rfl, by simp [Event.isFail]⟩

theorem exec_open_ended {b d l v z : Rat} (hx : exec (.openInst b d l v z) s = .next t) :
    ∃ es u, u.trace = s.trace ++ es ∧ Ended s u t es := by
  obtain ⟨-, -, ⟨u, hd, rfl⟩ | ⟨e, u, hd, rfl⟩⟩ := exec_open_next hx
  · obtain ⟨u, m, rfl⟩ := openTxn_done hd
    exact ⟨_, u.construct b d l v z, m.trace, .ok _ rfl (by simp [Event.isFail])⟩
  · obtain ⟨es, call, ha, rfl, m⟩ := openTxn_raised hd
    obtain ⟨fs, f, he, hf, hall⟩ := ha.last
    exact ⟨es, u, m.trace, .failed call fs f rfl he hf hall⟩

theorem exec_close_ended (hx : exec .close s = .next t) :
    ∃ es u, u.trace = s.trace ++ es ∧ Ended s u t es := by
  obtain ⟨-, rfl⟩ | ⟨-, ⟨u, hd, rfl⟩ | ⟨e, u, hd, rfl⟩⟩ := exec_close_next hx
  · exact ⟨[], s, by simp, .ok _ rfl (by simp)⟩
  · obtain ⟨u, m, rfl⟩ := closeTxn_done hd
    exact ⟨_, u.setLife .closed, m.trace, .ok _ rfl (by simp [Event.isFail])⟩
  · obtain ⟨rfl, u, m, rfl⟩ := closeTxn_raised hd
    exact ⟨_, u.setLife .closed, m.trace, .failed .closeBus [] _ rfl rfl rfl (by simp)⟩

/-- Whatever answers a next state completed, ended at its first failed call, or had an operand error. -/
theorem exec_next_ended (hx : exec i s = .next t) :
    ∃ es u, u.trace = s.trace ++ es ∧ Ended s u t es := by
  cases ho : isOpenOp i with
  | true =>
    cases i <;> simp only [isOpenOp, Bool.false_eq_true] at ho
    exact exec_open_ended hx
  | false =>
    by_cases hc : i = .close
    · subst hc
      exact exec_close_ended hx
    · obtain ⟨-, es, _, _, u, m, -, -, h⟩ := exec_next_cases ho hc hx
      exact ⟨es, u, m.trace, h⟩

/-! ### The events and the result of an ended operation -/

theorem Ended.trace (h : Ended s u t es) (hu : u.trace = s.trace ++ es) :
    t.trace = s.trace ++ es := by
  cases h with
  | ok v ht => simpa [ht] using hu
  | failed c fs f ht => simpa [ht] using hu
  | operand e ht _ hes => simp [ht, hes]

/-- Where the result names a failed call, its event is the last one and the only failed one. -/
theorem Ended.last_of_transport (h : Ended s u t es) (hr : t.result = some (.err (.transport c))) :
    ∃ fs f, es = fs ++ [f] ∧ f.failedCall = some c ∧ ∀ x ∈ fs, x.isFail = false := by
  cases h with
  | ok v ht => simp [ht] at hr
  | failed c' fs f ht he hf hall =>
    obtain rfl : c' = c := by simpa [ht] using hr
    exact ⟨fs, f, he, hf, hall⟩
  | operand e ht hne => exact absurd (by simpa [ht] using hr) (hne c)

/-- A failed event is surfaced: only a `TransportError` leaves one. -/
theorem Ended.transport_of_isFail (h : Ended s u t es) {f : Event} (hf : f ∈ es)
    (hfail : f.isFail = true) : ∃ c, t.result = some (.err (.transport c)) := by
  cases h with
  | ok v _ hall => simp [hall f hf] at hfail
  | failed c _ _ ht => exact ⟨c, by simp [ht]⟩
  | operand _ _ _ hes => simp [hes] at hf

/-- Settles O51: every operation ends in one of the ways of `Ended`, and of those only the failed call
leaves a failed event, its last. -/
theorem transportFailureIsNeverRetried : Obligations.TransportFailureIsNeverRetried := by
  refine ⟨fun i s t c hx hr => ?_, fun i s t es f hx htrace hf hfail => ?_⟩
  · obtain ⟨es, u, hu, h⟩ := exec_next_ended hx
    obtain ⟨fs, f, rfl, hc, hall⟩ := h.last_of_transport hr
    exact ⟨fs, f, by simpa using h.trace hu, hc, hall⟩
  · obtain ⟨es', u, hu, h⟩ := exec_next_ended hx
    obtain rfl : es = es' := List.append_cancel_left (htrace.symm.trans (h.trace hu))
    exact h.transport_of_isFail hf hfail

end Sys2Proof.Machine
end

section
/-! The two encodings of an operation read back (30_encoding.md R73, R75, R81 to R85). -/

namespace Sys2Proof.Machine

variable {i : Instr} {bytes : List Byte} {b v : Byte}

/-! ### Calls by mnemonic -/

theorem decodeCall_wreg (addr : Nat) (v : Byte) :
    decodeCall .wreg [natOperand addr, natOperand v.toNat] = .ok (.wreg addr v) := by
  simp [decodeCall]

theorem decodeCall_setrange (ch r : Nat) :
    decodeCall .setrange [natOperand ch, .range r] = .ok (.setrange ch r) := by
  simp [decodeCall, Operand.rangeIndex]

theorem decodeCall_man (ch : Nat) : decodeCall .man [natOperand ch] = .ok (manInstr ch) := by
  simp [decodeCall, typed]

theorem decodeCall_r2v (raw : Word) (r : Nat) :
    decodeCall .r2v [natOperand raw.toNat, .range r] = .ok (.r2v raw r) := by
  simp [decodeCall, Operand.rangeIndex]

/-- Settles O3: each operand is read back as the value it was written from, and the channels of
`MAN` select the row they came from. -/
theorem callByMnemonicRoundTrips : Obligations.CallByMnemonicRoundTrips := by
  intro i hwf
  cases i with
  | man0 | man1 | man2 | man3 | man4 | man5 | man6 | man7 => exact decodeCall_man _
  | manAux ch =>
    have hch : 8 ≤ ch := by simpa [Instr.wf] using hwf
    exact (decodeCall_man ch).trans (by rw [manInstr_of_le hch])
  | wreg addr v => exact decodeCall_wreg addr v
  | rreg addr => simp [callOf, decode, decodeCall, typed]
  | setrange ch r => exact decodeCall_setrange ch r
  | setseq m | setpd m | setseqpd m => simp [callOf, decode, decodeCall, typed]
  | r2v raw r => exact decodeCall_r2v raw r
  | noop | stdby | pwrdn | rst | autorst | openInst b d c v z | close | getmode | getfeat
  | setgrange r | v2r volts r => rfl

/-! ### Table words -/

theorem decodeWord_writeFrame {addr : Nat} (h : addr < 64) (v : Byte) :
    decodeWord (writeFrame addr v) = .ok (.wreg addr v) := by
  simp only [writeFrame, decodeWord, registerByte0_write_top h, registerByte0_write_w h,
    registerByte0_write_address h]
  rfl

theorem decodeWord_readFrame {addr : Nat} (h : addr < 64) :
    decodeWord (readFrame addr) = .ok (.rreg addr) := by
  simp only [readFrame, decodeWord, registerByte0_read_top h, registerByte0_read_w h,
    registerByte0_read_address h]
  rfl

/-- A table word names the row it belongs to. -/
theorem decodeWord_encodeWord (h : encodeWord i = some bytes) : decodeWord bytes = .ok i := by
  cases i <;> simp only [encodeWord, reduceCtorEq] at h
  case manAux ch =>
    split at h
    · cases h
      subst_vars
      rfl
    · cases h
  case wreg addr v =>
    split at h
    · cases h
      exact decodeWord_writeFrame ‹_› v
    · cases h
  case rreg addr =>
    split at h
    · cases h
      exact decodeWord_readFrame ‹_›
    · cases h
  all_goals
    cases h
    rfl

/-- Settles O2: the encoding is a table word, which names its row, or the call by mnemonic. -/
theorem decodeOfEncodeIsIdentity : Obligations.DecodeOfEncodeIsIdentity := by
  intro i hwf
  unfold encode
  cases h : encodeWord i with
  | some bytes => exact decodeWord_encodeWord h
  | none => exact callByMnemonicRoundTrips i hwf

/-- The address field of a byte 0 whose bit 7 is clear (30_encoding.md R76). -/
theorem shiftRight_lt_of_top_clear (h : b.getLsbD 7 = false) : (b >>> 1).toNat < 64 := by
  have hlt := b.isLt
  rw [BitVec.getLsbD, Nat.testBit_eq_decide_div_mod_eq, decide_eq_false_iff_not] at h
  rw [BitVec.toNat_ushiftRight, Nat.shiftRight_eq_div_pow]
  omega

theorem toNat_mod_two_of_w (w : Bool) (h : b.getLsbD 0 = w) : b.toNat % 2 = w.toNat := by
  rw [BitVec.getLsbD, Nat.testBit_zero] at h
  cases w <;> simpa using h

/-- A frame whose W bit is set is the write frame of its address field. -/
theorem writeFrame_of_w (h : b.getLsbD 0 = true) (v : Byte) :
    writeFrame (b >>> 1).toNat v = [b, v, 0x00] := by
  suffices registerByte0 (b >>> 1).toNat 1 = b by rw [writeFrame, this]
  have hw := toNat_mod_two_of_w true h
  have hlt := b.isLt
  rw [registerByte0_write, BitVec.toNat_ushiftRight, Nat.shiftRight_eq_div_pow]
  apply BitVec.eq_of_toNat_eq
  rw [BitVec.toNat_ofNat]
  simp only [Bool.toNat_true] at hw
  omega

/-- A frame whose W bit is clear is the read frame of its address field. -/
theorem readFrame_of_w (h : b.getLsbD 0 = false) : readFrame (b >>> 1).toNat = [b, 0x00, 0x00] := by
  suffices registerByte0 (b >>> 1).toNat 0 = b by rw [readFrame, this]
  have hw := toNat_mod_two_of_w false h
  have hlt := b.isLt
  rw [registerByte0_read, BitVec.toNat_ushiftRight, Nat.shiftRight_eq_div_pow]
  apply BitVec.eq_of_toNat_eq
  rw [BitVec.toNat_ofNat]
  simp only [Bool.toNat_false] at hw
  omega

theorem encodeWord_wreg {addr : Nat} (h : addr < 64) (v : Byte) :
    encodeWord (.wreg addr v) = some (writeFrame addr v) := by simp [encodeWord, h]

theorem encodeWord_rreg {addr : Nat} (h : addr < 64) :
    encodeWord (.rreg addr) = some (readFrame addr) := by simp [encodeWord, h]

/-- A word that names a row is that row's word, and the row is well formed. -/
theorem encodeWord_of_decodeWord (h : decodeWord bytes = .ok i) :
    encodeWord i = some bytes ∧ i.wf = true := by
  unfold decodeWord at h
  split at h
  · rename_i op filler
    split at h
    · cases h
    · split at h <;> cases h
      rename_i hf _ hrow
      rw [not_not.1 hf]
      exact commandRows_encode _ (commandOfOpcode_mem hrow)
  · rename_i b0 v filler
    split at h <;> try cases h
    rename_i htop
    have ha := shiftRight_lt_of_top_clear (Bool.not_eq_true _ ▸ htop)
    split at h <;> try cases h
    rename_i hf
    split at h
    · cases h
      rename_i hw
      exact ⟨by rw [encodeWord_wreg ha, writeFrame_of_w hw, not_not.1 hf], rfl⟩
    · split at h <;> cases h
      rename_i hw hv
      have hw' : b0.getLsbD 0 = false := Bool.not_eq_true _ ▸ hw
      exact ⟨by rw [encodeWord_rreg ha, readFrame_of_w hw', not_not.1 hf, not_not.1 hv], rfl⟩
  · cases h

/-- Settles O4: a word that decodes is the word of the row it names. -/
theorem everyDecodedWordIsTheEncoding : Obligations.EveryDecodedWordIsTheEncoding := by
  intro bytes i h
  obtain ⟨hword, hwf⟩ := encodeWord_of_decodeWord h
  exact ⟨by simp [encode, hword], hwf⟩

end Sys2Proof.Machine
end

section
/-! The invariant over every operation (70_reset_and_hazards.md R250; 10_state.md R27, R28, R31). -/

namespace Sys2Proof.Machine

variable {i : Instr} {s t u : State} {es : List Event} {m : Mode} {l : Cs}

/-- The invariant of a state that continues a trace legally, with `cs` the level the events lead
to. -/
theorem Inv.of_extension (h : Inv s) (hc : u.cfg = s.cfg) (ht : u.trace = s.trace ++ es)
    (hp : tracePhase s.cfg (restPhase s.life) es = some (restPhase u.life))
    (hl : u.cs = traceLevel s.cs es)
    (ho : u.life = .opened → 0 < u.vref ∧ u.feature = u.cfg.featureInit) : Inv u where
  vrefPositive hu := (ho hu).1
  featureInitial hu := (ho hu).2
  traceLegal := by rw [hc, ht, tracePhase_trans h.traceLegal, hp]
  csMirrors := by rw [hl, ht, traceLevel_append, ← h.csMirrors]

/-- Transport activity that is legal between operations and leaves `cs` where it leads. -/
theorem Inv.of_moved (h : Inv s) (hm : Moved s es m l u)
    (hp : tracePhase s.cfg (restPhase s.life) es = some (restPhase s.life))
    (hl : traceLevel s.cs es = l) : Inv u := by
  obtain ⟨hlife, hvref, hfeature, -, -, -, -, hcfg, -⟩ := hm.frame
  refine h.of_extension hcfg hm.trace (by rw [hlife, hp]) (by rw [hm.cs, hl]) fun hu => ?_
  rw [hlife] at hu
  rw [hvref, hfeature, hcfg]
  exact ⟨h.vrefPositive hu, h.featureInitial hu⟩

theorem Inv.returnOk (h : Inv s) (v : Value) : Inv (s.returnOk v) :=
  ⟨h.vrefPositive, h.featureInitial, h.traceLegal, h.csMirrors⟩

theorem Inv.returnErr (h : Inv s) (e : Err) : Inv (s.returnErr e) :=
  ⟨h.vrefPositive, h.featureInitial, h.traceLegal, h.csMirrors⟩

theorem Inv.of_ended (hs : Inv s) (hu : Inv u) (h : Ended s u t es) : Inv t := by
  cases h with
  | ok v ht => exact ht ▸ hu.returnOk v
  | failed c fs f ht => exact ht ▸ hu.returnErr _
  | operand e ht => exact ht ▸ hs.returnErr e

/-- An aborted `OPEN` is legal on a closed driver, which stays closed, and leaves the line
UNKNOWN. -/
theorem tracePhase_openAbort {cfg : Config} {b d z : Rat} {c : FailedCall}
    (h : OpenAbort b d z es c) (l : Cs) :
    tracePhase cfg .closed es = some .closed ∧ traceLevel l es = .unknown := by
  cases h with
  | onOpen | onConfigure | onDeassert => exact ⟨rfl, rfl⟩

theorem exec_open_keeps_inv {b d c v z : Rat} (h : Inv s)
    (hx : exec (.openInst b d c v z) s = .next t) : Inv t := by
  obtain ⟨hl, hv, ⟨u, hd, rfl⟩ | ⟨e, u, hd, rfl⟩⟩ := exec_open_next hx
  · obtain ⟨u, hm, rfl⟩ := openTxn_done hd
    exact (h.of_extension (u := u.construct b d c v z) hm.cfg hm.trace (by rw [hl]; rfl) rfl
      fun _ => ⟨hv, rfl⟩).returnOk _
  · obtain ⟨es, call, ha, -, hm⟩ := openTxn_raised hd
    obtain ⟨hp, hc⟩ := tracePhase_openAbort (cfg := s.cfg) ha s.cs
    exact (h.of_moved hm (by rw [hl]; exact hp) hc).returnErr _

theorem exec_close_keeps_inv (h : Inv s) (hx : exec .close s = .next t) : Inv t := by
  obtain ⟨-, rfl⟩ | ⟨hl, ⟨u, hd, rfl⟩ | ⟨e, u, hd, rfl⟩⟩ := exec_close_next hx
  · exact h.returnOk _
  · obtain ⟨u, hm, rfl⟩ := closeTxn_done hd
    exact (h.of_extension (u := u.setLife .closed) hm.cfg hm.trace (by rw [hl]; rfl) hm.cs
      nofun).returnOk _
  · obtain ⟨-, u, hm, rfl⟩ := closeTxn_raised hd
    exact (h.of_extension (u := u.setLife .closed) hm.cfg hm.trace (by rw [hl]; rfl) hm.cs
      nofun).returnErr _

/-- Every operation keeps the invariant. -/
theorem exec_keeps_inv (h : Inv s) (hx : exec i s = .next t) : Inv t := by
  cases ho : isOpenOp i with
  | true =>
    cases i <;> simp only [isOpenOp, Bool.false_eq_true] at ho
    exact exec_open_keeps_inv h hx
  | false =>
    by_cases hc : i = .close
    · subst hc
      exact exec_close_keeps_inv h hx
    · obtain ⟨hl, es, m, l, u, hm, hp, hv, he⟩ := exec_next_cases ho hc hx
      have hu : Inv u := h.of_moved hm (by rw [hl]; exact hp) hv
      exact h.of_ended hu he

/-- Settles O55: a step performs an operation, and every operation keeps the invariant. -/
theorem stepKeepsTheInvariant : Obligations.StepKeepsTheInvariant := by
  intro s t h hstep
  obtain ⟨-, call, i, -, -, hx⟩ := step_next hstep
  exact exec_keeps_inv h hx

/-- Settles O54: the two traces, of `OPEN`'s calls and of none, are evaluated. -/
theorem resetMeetsTheInvariant : Obligations.ResetMeetsTheInvariant :=
  ⟨⟨fun _ => by norm_num [State.reset, resetVref], fun _ => rfl, rfl, rfl⟩,
    ⟨nofun, nofun, rfl, rfl⟩⟩

end Sys2Proof.Machine
end

section
/-! The host program (10_state.md R22; 60_exceptions.md R220): when a step performs an operation,
and what no operation writes (10_state.md section 1). -/

namespace Sys2Proof.Machine

variable {i : Instr} {s t u : State} {es : List Event} {e : Err} {call : HostCall}

/-! ### Which step is made -/

theorem step_of_decode (hs : s.stopped = false) (hf : s.fetch = some call)
    (hd : decode call = .ok i) : step s = exec i s := by simp [step, hs, hf, hd]

theorem step_of_decode_error {d : DecodeError} (hs : s.stopped = false) (hf : s.fetch = some call)
    (hd : decode call = .error d) : step s = .refused (.noOperation d) := by simp [step, hs, hf, hd]

theorem step_of_fetch_none (hs : s.stopped = false) (hf : s.fetch = none) :
    step s = .fault .programEnded := by simp [step, hs, hf]

theorem step_of_err (h : s.result = some (.err e)) : step s = .fault .programStopped := by
  simp [step, State.stopped, h]

theorem decode_of_decodeTableWord {nbits w : Nat} (h : decodeTableWord nbits w = some i) :
    decode (.word (tableWordBytes nbits w)) = .ok i := by
  unfold decodeTableWord at h
  split at h <;> cases h
  assumption

/-- Settles O6: the equations of the step, and the load of a table word that decodes. -/
theorem stepPerformsTheTranscribedCall : Obligations.StepPerformsTheTranscribedCall :=
  ⟨fun _ _ _ => step_of_decode, fun _ => step_of_fetch_none, fun _ _ => step_of_err,
    fun _ _ _ _ h => step_of_decode rfl rfl (decode_of_decodeTableWord h)⟩

/-! ### Calls that are no operation -/

theorem natOfRat_eq_none {q : Rat} (h : q.den ≠ 1 ∨ q < 0) : natOfRat q = none := by
  unfold natOfRat
  rw [if_neg]
  rintro ⟨hd, hn⟩
  rcases h with h | h
  · exact h hd
  · exact absurd (Rat.num_nonneg.1 hn) (not_le.2 h)

section
variable {a x c r m : Operand} {n : Nat}

theorem u8_eq_none_of_natural (h : a.natural = none) : a.u8 = none := by simp [Operand.u8, h]

theorem u16_eq_none_of_natural (h : a.natural = none) : a.u16 = none := by simp [Operand.u16, h]

theorem u8_eq_none_of_le (h : 256 ≤ n) : (Operand.num n).u8 = none := by
  simp [Operand.u8, Operand.natural, natOfRat_natCast, h]

theorem u16_eq_none_of_le (h : 65536 ≤ n) : (Operand.num n).u16 = none := by
  simp [Operand.u16, Operand.natural, natOfRat_natCast, h]

/-- A call of one operand whose operand does not fit its type. -/
theorem typed_map_none {α : Type} {o : Option α} {f : α → Instr} (h : o = none) :
    typed (o.map f) = .error .operandType := by simp [h, typed]

theorem decodeCall_wreg_misfit (h : a.natural = none ∨ m.u8 = none) :
    decodeCall .wreg [a, m] = .error .operandType := by
  simp only [decodeCall]
  split
  · simp_all
  · rfl

theorem decodeCall_setrange_misfit (h : c.channel = none ∨ r.rangeIndex = none) :
    decodeCall .setrange [c, r] = .error .operandType := by
  simp only [decodeCall]
  split
  · simp_all
  · rfl

theorem decodeCall_r2v_misfit (h : x.u16 = none ∨ r.rangeIndex = none) :
    decodeCall .r2v [x, r] = .error .operandType := by
  simp only [decodeCall]
  split
  · simp_all
  · rfl

theorem decodeCall_v2r_misfit (h : r.rangeIndex = none) :
    decodeCall .v2r [x, r] = .error .operandType := by
  simp only [decodeCall]
  split
  · simp_all
  · rfl

end

/-- Settles O5: every such call has an operand that does not fit its type, or is no call by mnemonic
at all, so it does not decode. -/
theorem callsThatAreNoOperationAreRefused : Obligations.CallsThatAreNoOperationAreRefused := by
  intro s call n q a r hs hf h
  suffices hd : ∃ d, decode call = .error d from hd.imp fun d => step_of_decode_error hs hf
  rcases h with ⟨hn, h⟩ | ⟨hn, h⟩ | ⟨hq, h⟩ | ⟨op, rfl⟩ | ⟨m, args, rfl⟩
  case inl =>
    have hu := u8_eq_none_of_le hn
    rcases h with rfl | rfl | rfl | rfl
    · exact ⟨_, decodeCall_wreg_misfit (.inr hu)⟩
    · exact ⟨_, typed_map_none hu⟩
    · exact ⟨_, typed_map_none hu⟩
    · exact ⟨_, typed_map_none hu⟩
  case inr.inl =>
    have hu := u16_eq_none_of_le hn
    rcases h with rfl | rfl
    · exact ⟨_, typed_map_none hu⟩
    · exact ⟨_, decodeCall_r2v_misfit (.inl hu)⟩
  case inr.inr.inl =>
    have hq : natOfRat q = none := natOfRat_eq_none hq
    have h8 : (Operand.num q).u8 = none := u8_eq_none_of_natural hq
    have h16 : (Operand.num q).u16 = none := u16_eq_none_of_natural hq
    rcases h with rfl | rfl | rfl | rfl | rfl | rfl | rfl | rfl | rfl | rfl | rfl | rfl | rfl | rfl
    · exact ⟨_, typed_map_none (o := (Operand.num q).channel) hq⟩
    · exact ⟨_, typed_map_none (o := (Operand.num q).natural) hq⟩
    · exact ⟨_, decodeCall_wreg_misfit (.inl hq)⟩
    · exact ⟨_, typed_map_none (o := (Operand.num q).rangeIndex) hq⟩
    · exact ⟨_, decodeCall_setrange_misfit (.inl hq)⟩
    · exact ⟨_, decodeCall_setrange_misfit (.inr hq)⟩
    · exact ⟨_, decodeCall_r2v_misfit (.inr hq)⟩
    · exact ⟨_, decodeCall_v2r_misfit hq⟩
    · exact ⟨_, decodeCall_wreg_misfit (.inr h8)⟩
    · exact ⟨_, typed_map_none h8⟩
    · exact ⟨_, typed_map_none h8⟩
    · exact ⟨_, typed_map_none h8⟩
    · exact ⟨_, typed_map_none h16⟩
    · exact ⟨_, decodeCall_r2v_misfit (.inl h16)⟩
  · exact ⟨_, rfl⟩
  · exact ⟨_, rfl⟩

/-- Settles O1: the words are read, most significant byte first. -/
theorem commandRowWordsAndSampleWordsDecode : Obligations.CommandRowWordsAndSampleWordsDecode := by
  unfold Obligations.CommandRowWordsAndSampleWordsDecode
  decide

/-- Settles O8: the text is read line by line. -/
theorem exampleLinesAreTheirCalls : Obligations.ExampleLinesAreTheirCalls := by
  unfold Obligations.ExampleLinesAreTheirCalls
  decide

/-! ### What no operation writes -/

/-- `t` continues `s`: the events `es` are appended, answers are drawn, none of which hangs, and the
parameters, the host program and the transport are those of `s`. -/
structure Extended (s t : State) (es : List Event) : Prop where
  trace : t.trace = s.trace ++ es
  cfg : t.cfg = s.cfg
  program : t.program = s.program
  transport : t.transport = s.transport
  drawn : Drawn s.answers t.answers

theorem Extended.refl (s : State) : Extended s s [] := ⟨by simp, rfl, rfl, rfl, .refl _⟩

theorem Moved.extended {m : Mode} {l : Cs} (h : Moved s es m l t) : Extended s t es := by
  obtain ⟨-, -, -, -, -, -, -, hcfg, hprogram, -, -, htransport⟩ := h.frame
  exact ⟨h.trace, hcfg, hprogram, htransport, h.drawn⟩

theorem Extended.of_ended (hu : Extended s u es) (h : Ended s u t es) : Extended s t es := by
  obtain ⟨htrace, hcfg, hprogram, htransport, hdrawn⟩ := hu
  cases h with
  | ok v ht => exact ht ▸ ⟨htrace, hcfg, hprogram, htransport, hdrawn⟩
  | failed c fs f ht => exact ht ▸ ⟨htrace, hcfg, hprogram, htransport, hdrawn⟩
  | operand e ht _ hes => exact ht ▸ hes ▸ ⟨(List.append_nil _).symm, rfl, rfl, rfl, .refl _⟩

theorem exec_open_extended {b d c v z : Rat} (hx : exec (.openInst b d c v z) s = .next t) :
    ∃ es u, Extended s u es ∧ u.pc = s.pc ∧ Ended s u t es := by
  obtain ⟨-, -, ⟨u, hd, rfl⟩ | ⟨e, u, hd, rfl⟩⟩ := exec_open_next hx
  · obtain ⟨u, hm, rfl⟩ := openTxn_done hd
    obtain ⟨htrace, hcfg, hprogram, htransport, hdrawn⟩ := hm.extended
    exact ⟨_, u.construct b d c v z, ⟨htrace, hcfg, hprogram, htransport, hdrawn⟩, hm.pc,
      .ok _ rfl (by simp [Event.isFail])⟩
  · obtain ⟨es, call, ha, rfl, hm⟩ := openTxn_raised hd
    obtain ⟨fs, f, he, hf, hall⟩ := ha.last
    exact ⟨es, u, hm.extended, hm.pc, .failed call fs f rfl he hf hall⟩

theorem exec_close_extended (hx : exec .close s = .next t) :
    ∃ es u, Extended s u es ∧ u.pc = s.pc ∧ Ended s u t es := by
  obtain ⟨-, rfl⟩ | ⟨-, ⟨u, hd, rfl⟩ | ⟨e, u, hd, rfl⟩⟩ := exec_close_next hx
  · exact ⟨[], s, .refl s, rfl, .ok _ rfl (by simp)⟩
  · obtain ⟨u, hm, rfl⟩ := closeTxn_done hd
    obtain ⟨htrace, hcfg, hprogram, htransport, hdrawn⟩ := hm.extended
    exact ⟨_, u.setLife .closed, ⟨htrace, hcfg, hprogram, htransport, hdrawn⟩, hm.pc,
      .ok _ rfl (by simp [Event.isFail])⟩
  · obtain ⟨rfl, u, hm, rfl⟩ := closeTxn_raised hd
    obtain ⟨htrace, hcfg, hprogram, htransport, hdrawn⟩ := hm.extended
    exact ⟨_, u.setLife .closed, ⟨htrace, hcfg, hprogram, htransport, hdrawn⟩, hm.pc,
      .failed .closeBus [] _ rfl rfl rfl (by simp)⟩

/-- Every operation continues the state it ran in, and counts itself only as it returns. -/
theorem exec_next_extended (hx : exec i s = .next t) :
    ∃ es u, Extended s u es ∧ u.pc = s.pc ∧ Ended s u t es := by
  cases ho : isOpenOp i with
  | true =>
    cases i <;> simp only [isOpenOp, Bool.false_eq_true] at ho
    exact exec_open_extended hx
  | false =>
    by_cases hc : i = .close
    · subst hc
      exact exec_close_extended hx
    · obtain ⟨-, es, _, _, u, hm, -, -, h⟩ := exec_next_cases ho hc hx
      exact ⟨es, u, hm.extended, hm.pc, h⟩

theorem exec_extended (hx : exec i s = .next t) : ∃ es, Extended s t es := by
  obtain ⟨es, u, hu, -, h⟩ := exec_next_extended hx
  exact ⟨es, hu.of_ended h⟩

/-- Settles O49: the operation the step performs continues the state. -/
theorem stepOnlyExtendsTheTrace : Obligations.StepOnlyExtendsTheTrace := by
  intro s t hstep
  obtain ⟨-, call, i, -, -, hx⟩ := step_next hstep
  obtain ⟨es, h⟩ := exec_extended hx
  exact ⟨h.trace ▸ List.prefix_append _ _, h.cfg, h.program, h.transport, h.drawn.suffix⟩

/-- Settles O7: each way an operation ends returns `Ok`, which counts it, or an error, which stops
the program. -/
theorem programCounterAdvancesOnlyOnOk : Obligations.ProgramCounterAdvancesOnlyOnOk := by
  intro s t hstep
  obtain ⟨-, call, i, -, -, hx⟩ := step_next hstep
  obtain ⟨es, u, -, hpc, h⟩ := exec_next_extended hx
  cases h with
  | ok v ht => exact ht ▸ .inl ⟨v, rfl, congrArg (· + 1) hpc⟩
  | failed c fs f ht => exact ht ▸ .inr ⟨_, rfl, hpc, step_of_err rfl⟩
  | operand e ht => exact ht ▸ .inr ⟨e, rfl, rfl, step_of_err rfl⟩

/-- Settles O52: of the ways an operation ends, only that of an operand error returns an error which
is no transport failure. -/
theorem operandErrorsWriteNothing : Obligations.OperandErrorsWriteNothing := by
  intro i s t e hx hr he
  obtain ⟨es, u, -, h⟩ := exec_next_ended hx
  cases h with
  | ok v ht => simp [ht] at hr
  | failed c fs f ht => exact absurd (by simpa [ht] using hr.symm) (he c)
  | operand e' ht =>
    obtain rfl : e' = e := by simpa [ht] using hr
    exact ht

/-- Settles O46: a host-only operation returns, or raises `InvalidRange`, from the state it ran
in. -/
theorem hostOnlyFrame : Obligations.HostOnlyFrame := by
  intro i s t h hx
  obtain ⟨-, ⟨v, rfl⟩ | ⟨n, -, rfl⟩⟩ := exec_hostOnly_next h hx
  · rfl
  · rfl

/-- Settles O47: the operation's transport activity moves the state, and its return writes the
result and `pc`. -/
theorem deviceOperationFrame : Obligations.DeviceOperationFrame := by
  intro i s t _ ho hc hx
  obtain ⟨-, es, m, l, u, hm, -, -, h⟩ := exec_next_cases ho hc hx
  have he := hm.extended.of_ended h
  obtain ⟨hlife, hvref, hfeature, hbus, hdev, hline, hhz, -⟩ := hm.frame
  suffices hf : t.life = s.life ∧ t.vref = s.vref ∧ t.feature = s.feature ∧ t.busId = s.busId ∧
      t.deviceId = s.deviceId ∧ t.csLine = s.csLine ∧ t.spiHz = s.spiHz by
    obtain ⟨h1, h2, h3, h4, h5, h6, h7⟩ := hf
    exact ⟨h1, h2, h3, h4, h5, h6, h7, he.cfg, he.program, he.transport,
      he.trace ▸ List.prefix_append _ _, he.drawn.suffix⟩
  cases h with
  | ok v ht => exact ht ▸ ⟨hlife, hvref, hfeature, hbus, hdev, hline, hhz⟩
  | failed c fs f ht => exact ht ▸ ⟨hlife, hvref, hfeature, hbus, hdev, hline, hhz⟩
  | operand e ht => exact ht ▸ ⟨rfl, rfl, rfl, rfl, rfl, rfl, rfl⟩

/-- `CLOSE` keeps every driver field but `life` and the trace, however it ends. -/
theorem exec_close_frame (hx : exec .close s = .next t) :
    t.mode = s.mode ∧ t.vref = s.vref ∧ t.feature = s.feature ∧ t.cs = s.cs ∧ t.busId = s.busId ∧
      t.deviceId = s.deviceId ∧ t.csLine = s.csLine ∧ t.spiHz = s.spiHz ∧ t.life = .closed := by
  obtain ⟨hl, rfl⟩ | ⟨-, ⟨u, hd, rfl⟩ | ⟨e, u, hd, rfl⟩⟩ := exec_close_next hx
  · exact ⟨rfl, rfl, rfl, rfl, rfl, rfl, rfl, rfl, hl⟩
  · obtain ⟨u, hm, rfl⟩ := closeTxn_done hd
    obtain ⟨-, hvref, hfeature, hbus, hdev, hline, hhz, -⟩ := hm.frame
    exact ⟨hm.mode, hvref, hfeature, hm.cs, hbus, hdev, hline, hhz, rfl⟩
  · obtain ⟨-, u, hm, rfl⟩ := closeTxn_raised hd
    obtain ⟨-, hvref, hfeature, hbus, hdev, hline, hhz, -⟩ := hm.frame
    exact ⟨hm.mode, hvref, hfeature, hm.cs, hbus, hdev, hline, hhz, rfl⟩

/-- An `OPEN` that ends in an error writes no field but the trace and `cs`. -/
theorem exec_open_err_frame {b d c v z : Rat} (hx : exec (.openInst b d c v z) s = .next t)
    (hr : t.result = some (.err e)) :
    t.life = s.life ∧ t.mode = s.mode ∧ t.vref = s.vref ∧ t.feature = s.feature ∧
      t.busId = s.busId ∧ t.deviceId = s.deviceId ∧ t.csLine = s.csLine ∧ t.spiHz = s.spiHz := by
  obtain ⟨-, -, ⟨u, -, rfl⟩ | ⟨e, u, hd, rfl⟩⟩ := exec_open_next hx
  · simp at hr
  · obtain ⟨es, call, -, -, hm⟩ := openTxn_raised hd
    obtain ⟨hlife, hvref, hfeature, hbus, hdev, hline, hhz, -⟩ := hm.frame
    exact ⟨hlife, hm.mode, hvref, hfeature, hbus, hdev, hline, hhz⟩

/-- Settles O48: the frames of `CLOSE` and of a failed `OPEN`, beside what every operation keeps. -/
theorem lifecycleFrame : Obligations.LifecycleFrame := by
  refine ⟨fun s t hx => ?_, fun b d c v z s t hx => ?_⟩
  · obtain ⟨es, h⟩ := exec_extended hx
    obtain ⟨hmode, hvref, hfeature, hcs, hbus, hdev, hline, hhz, hlife⟩ := exec_close_frame hx
    exact ⟨hmode, hvref, hfeature, hcs, hbus, hdev, hline, hhz, h.cfg, h.program, h.transport,
      h.trace ▸ List.prefix_append _ _, h.drawn.suffix, hlife⟩
  · obtain ⟨es, h⟩ := exec_extended hx
    exact ⟨h.cfg, h.program, h.transport, h.trace ▸ List.prefix_append _ _, h.drawn.suffix,
      fun e => exec_open_err_frame hx⟩

end Sys2Proof.Machine
end

section
/-! The exchange whose answer is no reply of the length sent (40_lifecycle.md R101). -/

namespace Sys2Proof.Machine

/-- The answer makes an exchange of `n` bytes fail: the call fails, or returns another number. -/
def Answer.Refuses (n : Nat) (ans : Answer) : Prop :=
  ans = .fails ∨ ∃ bad : List Byte, ans = .returns bad ∧ bad.length ≠ n

theorem Answer.refuses_of {n : Nat} {ans : Answer} {bad : List Byte} (hl : bad.length ≠ n)
    (h : ans = .fails ∨ ans = .returns bad) : ans.Refuses n :=
  h.imp_right fun h => ⟨bad, h, hl⟩

theorem exchange_refused {s : State} {ans : Answer} {rest : List Answer} {out : List Byte}
    (h : s.answers = ans :: rest) (ha : ans.Refuses out.length) :
    exchange out s = .raised (.transport (.exchange out))
      (((s.setAnswers rest).log (.xfer out none)).setCs .unknown) := by
  rcases ha with rfl | ⟨bad, rfl, hl⟩
  · exact exchange_fails h
  · exact exchange_mismatch h hl

end Sys2Proof.Machine
end

section
/-! What a command leaves, completed or aborted at each of its transport calls (41_commands.md
R121 to
R126; 60_exceptions.md R216). -/

namespace Sys2Proof.Machine

variable {i : Instr} {s t : State} {cmd : Cmd} {e : Err} {a in1 in2 : List Byte}
  {ans : Answer} {rest : List Answer}

/-- Settles O10, by the table of the predicate. -/
theorem echoSetHasExactlyFourModes : Obligations.EchoSetHasExactlyFourModes :=
  fun _ => Mode.echoes_eq_true_iff

/-- A command on an open driver is its transaction. -/
theorem exec_command_opened (hc : commandOf i = some cmd) (hl : s.life = .opened) :
    exec i s = (cmdTxn cmd s).finish .u16 := by
  rw [exec_command hc, whenOpen_opened hl]

/-! ### Completed commands -/

/-- Settles O12: the served transaction without an echo. -/
theorem commandOutsideTheEchoSetCompletes : Obligations.CommandOutsideTheEchoSetCompletes := by
  intro i cmd s a in1 d rest hc hl he h1 h
  rw [exec_command_opened hc hl, cmdTxn_served_silent he h1 h []]
  simp [commandEvents, he, commandFrame, State.returnOk]

/-- Settles O13: the served transaction with an echo, whose value is the reply's two bytes. -/
theorem commandInTheEchoSetCompletes : Obligations.CommandInTheEchoSetCompletes := by
  intro i cmd s a in1 d hi lo rest hc hl he h1 h
  have hp : s.mode ≠ .powerDown := fun hp => by simp [hp, Mode.echoes] at he
  refine ⟨msbFirst hi lo, msbFirst_toNat hi lo, ?_⟩
  rw [exec_command_opened hc hl, cmdTxn_served_echo he h1 rfl h]
  simp [commandEvents, he, hp, commandFrame, State.returnOk]

theorem delayCount_commandEvents (cfg : Config) (pre : Mode) (cmd : Cmd) (in1 in2 : List Byte) :
    delayCount (commandEvents cfg pre cmd in1 in2) = if pre = .powerDown then 1 else 0 := by
  cases pre <;> rfl

/-- From PowerDown a command's events end with the settling delay, after the window. -/
theorem commandEvents_powerDown (cfg : Config) (cmd : Cmd) (in1 in2 : List Byte) :
    ∃ fs, commandEvents cfg .powerDown cmd in1 in2 =
      fs ++ [.cs .deassert .done, .delay cfg.settleDelayMs] :=
  ⟨[.cs .assert .done, .xfer (commandFrame cfg cmd) (some in1)], rfl⟩

/-! ### Aborted commands -/

/-- A command that returned an error was aborted in its transaction (60_exceptions.md R216). -/
theorem exec_command_err (hc : commandOf i = some cmd) (hx : exec i s = .next t)
    (hr : t.result = some (.err e)) :
    ∃ es call, CommandAbort (commandFrame s.cfg cmd) s.mode es call ∧ e = .transport call ∧
      t.trace = s.trace ++ es ∧ t.mode = s.mode ∧ t.cs = .unknown ∧ t.pc = s.pc := by
  obtain ⟨-, ⟨w, u, -, rfl⟩ | ⟨e', u, hd, rfl⟩⟩ := exec_command_next hc hx
  · simp at hr
  · obtain rfl : e' = e := by simpa using hr
    obtain ⟨es, call, ha, he, hm⟩ := cmdTxn_raised hd
    exact ⟨es, call, ha, he, hm.trace, hm.mode, hm.cs, hm.pc⟩

/-- Settles O18: an aborted transaction, and its last event. -/
theorem abortedCommandKeepsTheMode : Obligations.AbortedCommandKeepsTheMode := by
  intro i cmd s t e hc hx hr
  obtain ⟨es, call, ha, he, htrace, hmode, hcs, hpc⟩ := exec_command_err hc hx hr
  obtain ⟨fs, f, rfl, hf, hdelay, -, hall⟩ := ha.last
  exact ⟨hmode, hcs, hpc, fs, f, call, by simpa using htrace, he, hf, hdelay, hall⟩

/-- Settles O15: a completed command's events hold the delay from PowerDown alone, an aborted one's
hold none. -/
theorem settlingDelayExactlyOncePerCommandFromPowerDown :
    Obligations.SettlingDelayExactlyOncePerCommandFromPowerDown := by
  refine ⟨rfl, fun i cmd s t hc hx => ?_⟩
  obtain ⟨-, ⟨w, u, hd, rfl⟩ | ⟨e, u, hd, rfl⟩⟩ := exec_command_next hc hx
  · obtain ⟨in1, in2, -, -, -, hm⟩ := cmdTxn_done hd
    refine ⟨_, hm.trace, fun _ hp => ?_, fun h => ?_⟩
    · exact ⟨by rw [delayCount_commandEvents, if_pos hp], hp ▸ commandEvents_powerDown _ _ _ _⟩
    · have hp : s.mode ≠ .powerDown := h.resolve_left (by simp)
      rw [delayCount_commandEvents, if_neg hp]
  · obtain ⟨es, call, ha, -, hm⟩ := cmdTxn_raised hd
    obtain ⟨-, -, -, -, -, hdelay, -⟩ := ha.last
    exact ⟨es, hm.trace, by simp, fun _ => hdelay⟩

/-! ### The transaction at each failing call -/

theorem cmdTxn_assert_fails (h : s.answers = .fails :: rest) :
    cmdTxn cmd s = .raised (.transport .cs)
      { s with trace := s.trace ++ [.cs .assert .fail], cs := .unknown, answers := rest } := by
  unfold cmdTxn
  rw [driveCs_fails h]
  rfl

theorem cmdTxn_exchange_refused (ha : ans.Refuses 2) (h : s.answers = .returns a :: ans :: rest) :
    cmdTxn cmd s = .raised (.transport (.exchange (commandFrame s.cfg cmd)))
      { s with trace := s.trace ++ [.cs .assert .done, .xfer (commandFrame s.cfg cmd) none],
               cs := .unknown, answers := rest } := by
  unfold cmdTxn
  rw [driveCs_returns h, Attempt.done_andThen,
    exchange_refused (out := commandFrame s.cfg cmd) rfl ha]
  simp [State.log, State.setCs, State.setAnswers]

/-- The state of a command whose first exchange returned. -/
def commandSentState (s : State) (cmd : Cmd) (in1 : List Byte) (as : List Answer) : State :=
  { s with trace := s.trace ++ [.cs .assert .done, .xfer (commandFrame s.cfg cmd) (some in1)],
           cs := .assert, answers := as }

/-- What follows the first exchange of a command. -/
theorem cmdTxn_sent (h1 : in1.length = 2) (h : s.answers = .returns a :: .returns in1 :: rest) :
    cmdTxn cmd s = (readEcho s.mode (commandSentState s cmd in1 rest)).andThen fun word s3 =>
      (driveCs .deassert s3).andThen fun _ s4 =>
      .done word ((settle s.mode s4).setMode (s.mode.next cmd)) := by
  unfold cmdTxn
  rw [driveCs_returns h, Attempt.done_andThen, exchange_returns rfl h1, Attempt.done_andThen]
  simp [commandSentState, State.log, State.setCs, State.setAnswers, Level.toCs]

theorem readEcho_silent {pre : Mode} (he : pre.echoes = false) : readEcho pre s = .done 0 s := by
  simp [readEcho, he]

theorem readEcho_refused {pre : Mode} (he : pre.echoes = true) (ha : ans.Refuses 2)
    (h : s.answers = ans :: rest) :
    readEcho pre s = .raised (.transport (.exchange echoFrame))
      (((s.setAnswers rest).log (.xfer echoFrame none)).setCs .unknown) := by
  simp [readEcho, he, exchange_refused (out := echoFrame) h ha]

theorem readEcho_returns {pre : Mode} (he : pre.echoes = true) (h2 : in2.length = 2)
    (h : s.answers = .returns in2 :: rest) :
    readEcho pre s = .done (msbFirst (in2.getD 0 0) (in2.getD 1 0))
      ((s.setAnswers rest).log (.xfer echoFrame (some in2))) := by
  simp [readEcho, he, exchange_returns (out := echoFrame) h h2]

theorem cmdTxn_echo_refused (he : s.mode.echoes = true) (h1 : in1.length = 2) (ha : ans.Refuses 2)
    (h : s.answers = .returns a :: .returns in1 :: ans :: rest) :
    cmdTxn cmd s = .raised (.transport (.exchange echoFrame))
      { s with trace := s.trace ++ [.cs .assert .done, .xfer (commandFrame s.cfg cmd) (some in1),
                 .xfer echoFrame none],
               cs := .unknown, answers := rest } := by
  rw [cmdTxn_sent h1 h, readEcho_refused he ha rfl]
  simp [commandSentState, State.log, State.setCs, State.setAnswers]

theorem cmdTxn_deassert_fails_silent (he : s.mode.echoes = false) (h1 : in1.length = 2)
    (h : s.answers = .returns a :: .returns in1 :: .fails :: rest) :
    cmdTxn cmd s = .raised (.transport .cs)
      { s with trace := s.trace ++ [.cs .assert .done, .xfer (commandFrame s.cfg cmd) (some in1),
                 .cs .deassert .fail],
               cs := .unknown, answers := rest } := by
  rw [cmdTxn_sent h1 h, readEcho_silent he, Attempt.done_andThen, driveCs_fails rfl]
  simp [commandSentState, State.log, State.setCs, State.setAnswers]

theorem cmdTxn_deassert_fails_echo (he : s.mode.echoes = true) (h1 : in1.length = 2)
    (h2 : in2.length = 2)
    (h : s.answers = .returns a :: .returns in1 :: .returns in2 :: .fails :: rest) :
    cmdTxn cmd s = .raised (.transport .cs)
      { s with trace := s.trace ++ [.cs .assert .done, .xfer (commandFrame s.cfg cmd) (some in1),
                 .xfer echoFrame (some in2), .cs .deassert .fail],
               cs := .unknown, answers := rest } := by
  rw [cmdTxn_sent h1 h, readEcho_returns he h2 rfl, Attempt.done_andThen, driveCs_fails rfl]
  simp [commandSentState, State.log, State.setCs, State.setAnswers]

/-- Settles O19: the transaction, aborted at each of its calls. -/
theorem commandFailsAtEachTransportCall : Obligations.CommandFailsAtEachTransportCall := by
  intro i cmd s a in1 in2 bad ans rest hc hl h1 h2 hb
  rw [exec_command_opened hc hl]
  refine ⟨fun h => ?_, fun ha h => ?_, fun he ha h => ?_, fun he h => ?_, fun he h => ?_⟩
  · rw [cmdTxn_assert_fails h]
    rfl
  · rw [cmdTxn_exchange_refused (Answer.refuses_of hb ha) h]
    rfl
  · rw [cmdTxn_echo_refused he h1 (Answer.refuses_of hb ha) h]
    rfl
  · rw [cmdTxn_deassert_fails_echo he h1 h2 h]
    rfl
  · rw [cmdTxn_deassert_fails_silent he h1 h]
    rfl

/-- Settles O17: the dispatch of a channel above 8. -/
theorem manualSelectOfNoChannelIsInvalidChannel :
    Obligations.ManualSelectOfNoChannelIsInvalidChannel :=
  fun _ s hch hl => (manualSelect_illegal hch s).trans (whenOpen_opened hl)

end Sys2Proof.Machine
end

section
/-! What a register access leaves, completed, refused or aborted (42_registers.md R150 to R156). -/

namespace Sys2Proof.Machine

variable {i : Instr} {s t : State} {cfg : Config} {addr : Nat} {v : Value}
  {a frame reply : List Byte} {ans : Answer} {rest : List Answer}

/-! ### The register check -/

theorem registerOk_write_iff : registerOk cfg addr .write = true ↔
    addr ≤ 0x3F ∧ (accessOf addr cfg.regmap = .rw ∨ accessOf addr cfg.regmap = .wo) := by
  cases h : accessOf addr cfg.regmap <;> simp [registerOk, admits, h]

theorem registerOk_read_iff : registerOk cfg addr .read = true ↔
    addr ≤ 0x3F ∧ (accessOf addr cfg.regmap = .rw ∨ accessOf addr cfg.regmap = .ro) := by
  cases h : accessOf addr cfg.regmap <;> simp [registerOk, admits, h]

theorem registerOk_write_eq_false (h : 0x3F < addr ∨ accessOf addr cfg.regmap = .absent ∨
    accessOf addr cfg.regmap = .ro) : registerOk cfg addr .write = false := by
  rw [← Bool.not_eq_true, registerOk_write_iff]
  rintro ⟨hle, ha⟩
  rcases h with h | h | h
  · omega
  · simp [h] at ha
  · simp [h] at ha

theorem registerOk_read_eq_false (h : 0x3F < addr ∨ accessOf addr cfg.regmap = .absent ∨
    accessOf addr cfg.regmap = .wo) : registerOk cfg addr .read = false := by
  rw [← Bool.not_eq_true, registerOk_read_iff]
  rintro ⟨hle, ha⟩
  rcases h with h | h | h
  · omega
  · simp [h] at ha
  · simp [h] at ha

/-- Settles O23: every address a register frame can carry is looked up; one above 0x3F is no
register. -/
theorem defaultRegisterMapAdmits : Obligations.DefaultRegisterMapAdmits := by
  intro addr
  rw [registerOk_write_iff, registerOk_read_iff]
  by_cases h : addr ≤ 0x3F
  · interval_cases addr <;> decide
  · omega

/-! ### Completed and refused accesses -/

theorem exec_wreg_opened {x : Byte} (hl : s.life = .opened)
    (hw : registerOk s.cfg addr .write = true) :
    exec (.wreg addr x) s = (regTxn (writeFrame addr x) s).finish .u8 := by
  rw [show exec (.wreg addr x) s = whenOpen s ((writeReg addr x s).finish .u8) from rfl,
    whenOpen_opened hl, writeReg, hw]

theorem exec_rreg_opened (hl : s.life = .opened) (hr : registerOk s.cfg addr .read = true) :
    exec (.rreg addr) s = (regTxn (readFrame addr) s).finish .u8 := by
  rw [show exec (.rreg addr) s = whenOpen s ((readReg addr s).finish .u8) from rfl,
    whenOpen_opened hl, readReg, hr]

theorem exec_wreg_refused {x : Byte} (hl : s.life = .opened)
    (hw : registerOk s.cfg addr .write = false) :
    exec (.wreg addr x) s = .next (s.returnErr (.invalidRegister addr)) := by
  rw [show exec (.wreg addr x) s = whenOpen s ((writeReg addr x s).finish .u8) from rfl,
    whenOpen_opened hl, writeReg, hw]
  rfl

theorem exec_rreg_refused (hl : s.life = .opened) (hr : registerOk s.cfg addr .read = false) :
    exec (.rreg addr) s = .next (s.returnErr (.invalidRegister addr)) := by
  rw [show exec (.rreg addr) s = whenOpen s ((readReg addr s).finish .u8) from rfl,
    whenOpen_opened hl, readReg, hr]
  rfl

/-- Settles O22: the check refuses each of these accesses, before the transaction. -/
theorem registerCheckRaisesInvalidRegister : Obligations.RegisterCheckRaisesInvalidRegister :=
  fun _ _ _ hl => ⟨fun h => exec_wreg_refused hl (registerOk_write_eq_false h),
    fun h => exec_rreg_refused hl (registerOk_read_eq_false h)⟩

/-- Settles O20: the served transaction of the write frame. -/
theorem registerWriteCompletes : Obligations.RegisterWriteCompletes := by
  intro addr v b0 b1 b2 s a d rest hl hle hacc h
  rw [exec_wreg_opened hl (registerOk_write_iff.2 ⟨hle, hacc⟩),
    regTxn_served (frame := writeFrame addr v) (r := ⟨a, [b0, b1, b2], d⟩) h rfl]
  simp [State.returnOk, registerEvents, writeFrame, registerByte0_write]

/-- Settles O21: the served transaction of the read frame. -/
theorem registerReadCompletes : Obligations.RegisterReadCompletes := by
  intro addr b0 b1 b2 s a d rest hl hle hacc h
  rw [exec_rreg_opened hl (registerOk_read_iff.2 ⟨hle, hacc⟩),
    regTxn_served (frame := readFrame addr) (r := ⟨a, [b0, b1, b2], d⟩) h rfl]
  simp [State.returnOk, registerEvents, readFrame, registerByte0_read]

/-! ### The transaction at each failing call -/

theorem regTxn_assert_fails (h : s.answers = .fails :: rest) :
    regTxn frame s = .raised (.transport .cs)
      { s with trace := s.trace ++ [.cs .assert .fail], cs := .unknown, answers := rest } := by
  unfold regTxn
  rw [driveCs_fails h]
  rfl

theorem regTxn_exchange_refused (ha : ans.Refuses frame.length)
    (h : s.answers = .returns a :: ans :: rest) :
    regTxn frame s = .raised (.transport (.exchange frame))
      { s with trace := s.trace ++ [.cs .assert .done, .xfer frame none],
               cs := .unknown, answers := rest } := by
  unfold regTxn
  rw [driveCs_returns h, Attempt.done_andThen, exchange_refused rfl ha]
  simp [State.log, State.setCs, State.setAnswers]

theorem regTxn_deassert_fails (hr : reply.length = frame.length)
    (h : s.answers = .returns a :: .returns reply :: .fails :: rest) :
    regTxn frame s = .raised (.transport .cs)
      { s with trace := s.trace ++
                 [.cs .assert .done, .xfer frame (some reply), .cs .deassert .fail],
               cs := .unknown, answers := rest } := by
  unfold regTxn
  rw [driveCs_returns h, Attempt.done_andThen, exchange_returns rfl hr, Attempt.done_andThen,
    driveCs_fails rfl]
  simp [State.log, State.setCs, State.setAnswers]

/-- Settles O26: the transaction of the access's frame, aborted at each of its calls. -/
theorem registerAccessFailsAtEachTransportCall :
    Obligations.RegisterAccessFailsAtEachTransportCall := by
  intro i frame a reply bad s ans rest hl hr hb hi
  obtain ⟨h3, hx⟩ : frame.length = 3 ∧ exec i s = (regTxn frame s).finish .u8 := by
    rcases hi with ⟨addr, x, rfl, hw, rfl⟩ | ⟨addr, rfl, hw, rfl⟩
    · exact ⟨rfl, exec_wreg_opened hl hw⟩
    · exact ⟨rfl, exec_rreg_opened hl hw⟩
  rw [hx]
  refine ⟨fun h => ?_, fun ha h => ?_, fun h => ?_⟩
  · rw [regTxn_assert_fails h]
    rfl
  · rw [regTxn_exchange_refused (Answer.refuses_of (h3.symm ▸ hb) ha) h]
    rfl
  · rw [regTxn_deassert_fails (hr.trans h3.symm) h]
    rfl

/-! ### The first exchange of an operation with a table word -/

/-- The one exchange of an `RREG` that returned `Ok` carries its read frame (42_registers.md
R156). -/
theorem exec_rreg_ok_outBytes (hx : exec (.rreg addr) s = .next t) (hr : t.result = some (.ok v)) :
    ∃ es, t.trace = s.trace ++ es ∧ outBytes es = [readFrame addr] := by
  obtain ⟨-, hx⟩ := whenOpen_eq_next.1 hx
  rcases Attempt.finish_eq_next.1 hx with ⟨b, u, hd, rfl⟩ | ⟨e, u, -, rfl⟩
  · obtain ⟨-, reply, -, -, hm⟩ := readReg_done hd
    exact ⟨_, hm.trace, rfl⟩
  · simp at hr

theorem outBytes_commandEvents (cfg : Config) (pre : Mode) (cmd : Cmd) (in1 in2 : List Byte) :
    outBytes (commandEvents cfg pre cmd in1 in2) =
      commandFrame cfg cmd :: if pre.echoes then [echoFrame] else [] := by
  cases pre <;> rfl

/-- A table word is a command's frame under the default parameters, or a register frame. -/
theorem encodeWord_eq_some {bytes : List Byte} (h : encodeWord i = some bytes) :
    (∃ cmd, commandOf i = some cmd ∧ bytes = commandFrame defaultConfig cmd) ∨
      (∃ addr x, i = .wreg addr x ∧ bytes = writeFrame addr x) ∨
      (∃ addr, i = .rreg addr ∧ bytes = readFrame addr) := by
  cases i <;> simp only [encodeWord, reduceCtorEq] at h
  case manAux ch =>
    split at h <;> cases h
    subst_vars
    exact .inl ⟨_, rfl, rfl⟩
  case wreg addr x =>
    split at h <;> cases h
    exact .inr (.inl ⟨addr, x, rfl, rfl⟩)
  case rreg addr =>
    split at h <;> cases h
    exact .inr (.inr ⟨addr, rfl, rfl⟩)
  all_goals
    cases h
    exact .inl ⟨_, rfl, rfl⟩

/-- Settles O9: the first exchange is the command's frame or the register frame, whichever the
word is. -/
theorem firstExchangeIsTheTableWord : Obligations.FirstExchangeIsTheTableWord := by
  intro i bytes s t v hword hcfg hx hr
  rcases encodeWord_eq_some hword with ⟨cmd, hc, rfl⟩ | ⟨addr, x, rfl, rfl⟩ | ⟨addr, rfl, rfl⟩
  · obtain ⟨in1, in2, -, -, -, htrace⟩ := exec_command_ok hc hx hr
    exact ⟨_, htrace, by rw [outBytes_commandEvents, hcfg]; rfl⟩
  · obtain ⟨es, htrace, hout⟩ := exec_wreg_ok_outBytes hx hr
    exact ⟨es, htrace, by rw [hout]; rfl⟩
  · obtain ⟨es, htrace, hout⟩ := exec_rreg_ok_outBytes hx hr
    exact ⟨es, htrace, by rw [hout]; rfl⟩

end Sys2Proof.Machine
end

section
/-! What `OPEN`, `CLOSE` and the accessors leave, completed or failed (40_lifecycle.md R104 to
R109). -/

namespace Sys2Proof.Machine

variable {s t : State} {i : Instr} {b d c v z : Rat} {x y w : List Byte} {rest : List Answer}

/-! ### `OPEN` -/

theorem exec_open_closed (hl : s.life = .closed) (hv : 0 < v) :
    exec (.openInst b d c v z) s = (openTxn b d c v z s).finish fun _ => .unit := by
  rw [show exec (.openInst b d c v z) s = execOpen b d c v z s from rfl]
  simp [execOpen, hl, hv]

theorem openTxn_served (h : s.answers = .returns x :: .returns y :: .returns w :: rest) :
    openTxn b d c v z s = .done ()
      (State.construct { s with
        trace := s.trace ++ [.opened b d .done, .configured 0 z 8 .done, .cs .deassert .done],
        answers := rest } b d c v z) := by
  unfold openTxn
  rw [callTransport_returns h rfl, Attempt.done_andThen, callTransport_returns rfl rfl,
    Attempt.done_andThen, driveCsLine_returns rfl]
  simp [TransportCall.event, State.construct, State.log, State.setCs, State.setAnswers]

theorem openTxn_open_fails (h : s.answers = .fails :: rest) :
    openTxn b d c v z s = .raised (.transport .openBus)
      { s with trace := s.trace ++ [.opened b d .fail], cs := .unknown, answers := rest } := by
  unfold openTxn
  rw [callTransport_fails h]
  rfl

theorem openTxn_configure_fails (h : s.answers = .returns x :: .fails :: rest) :
    openTxn b d c v z s = .raised (.transport .configure)
      { s with trace := s.trace ++ [.opened b d .done, .configured 0 z 8 .fail], cs := .unknown,
               answers := rest } := by
  unfold openTxn
  rw [callTransport_returns h rfl, Attempt.done_andThen, callTransport_fails rfl]
  simp [TransportCall.event, TransportCall.failEvent, TransportCall.failed,
    TransportCall.csAfterFail, State.log, State.setCs, State.setAnswers]

theorem openTxn_deassert_fails (h : s.answers = .returns x :: .returns y :: .fails :: rest) :
    openTxn b d c v z s = .raised (.transport .cs)
      { s with trace := s.trace ++
                 [.opened b d .done, .configured 0 z 8 .done, .cs .deassert .fail],
               cs := .unknown, answers := rest } := by
  unfold openTxn
  rw [callTransport_returns h rfl, Attempt.done_andThen, callTransport_returns rfl rfl,
    Attempt.done_andThen, driveCsLine_fails rfl]
  simp [TransportCall.event, State.log, State.setCs, State.setAnswers]

/-- Settles O33: the three served calls, and the construction. -/
theorem openCompletes : Obligations.OpenCompletes := by
  intro b d c v z s x y w rest hl hv h
  rw [exec_open_closed hl hv, openTxn_served h]
  rfl

/-- Settles O34: the completed `OPEN` from the driver never opened. -/
theorem openingAnUnopenedInstanceGivesReset : Obligations.OpeningAnUnopenedInstanceGivesReset :=
  fun x y w => openCompletes _ _ _ _ _ { State.unopened with answers := _ } x y w [] rfl
    (by norm_num [resetVref]) rfl

/-- Settles O35: the transaction of `OPEN`, failed at each of its calls. -/
theorem openFailsAtEachTransportCall : Obligations.OpenFailsAtEachTransportCall := by
  intro b d c v z s x y rest hl hv
  rw [exec_open_closed hl hv]
  refine ⟨fun h => ?_, fun h => ?_, fun h => ?_⟩
  · rw [openTxn_open_fails h]
    rfl
  · rw [openTxn_configure_fails h]
    rfl
  · rw [openTxn_deassert_fails h]
    rfl

/-- Settles O36: the check of `life` comes first, and `OPEN`'s own is followed by that of `vref`. -/
theorem lifecycleRefusals : Obligations.LifecycleRefusals := by
  refine ⟨fun i s hl hc ho => exec_closed hc ho hl, fun b d c v z s hl => ?_,
    fun b d c v z s hl hv => ?_⟩
  · change execOpen b d c v z s = _
    simp [execOpen, hl]
  · change execOpen b d c v z s = _
    simp [execOpen, hl, not_lt.2 hv]

/-! ### `CLOSE` and the accessors -/

theorem exec_close_opened (hl : s.life = .opened) :
    exec .close s = (closeTxn s).finish fun _ => .unit := by
  change execClose s = _
  simp [execClose, hl]

theorem exec_close_closed (hl : s.life = .closed) : exec .close s = .next (s.returnOk .unit) := by
  change execClose s = _
  simp [execClose, hl]

theorem closeTxn_returns (h : s.answers = .returns x :: rest) :
    closeTxn s = .done () (((s.setAnswers rest).log (.closed .done)).setLife .closed) := by
  simp [closeTxn, callTransport_returns (c := .closeBus) h rfl, TransportCall.event]

theorem closeTxn_fails (h : s.answers = .fails :: rest) :
    closeTxn s = .raised (.transport .closeBus)
      (((s.setAnswers rest).log (.closed .fail)).setLife .closed) := by
  simp only [closeTxn, callTransport_fails h]
  rfl

/-- Settles O37: the one call of `CLOSE`, returned and failed, and no call on a closed driver. -/
theorem closeCompletes : Obligations.CloseCompletes := by
  intro s x rest
  refine ⟨fun hl h => ?_, fun hl h => ?_, fun hl => exec_close_closed hl⟩
  · rw [exec_close_opened hl, closeTxn_returns h]
    rfl
  · rw [exec_close_opened hl, closeTxn_fails h]
    rfl

/-- Settles O38: on an open driver an accessor is its return. -/
theorem accessorsComplete : Obligations.AccessorsComplete :=
  fun _ hl => ⟨whenOpen_opened hl, whenOpen_opened hl⟩

end Sys2Proof.Machine
end

section
/-! The scaling operations and the two functions they return (44_scaling.md R190 to R196). -/

namespace Sys2Proof.Machine

variable {s : State} {raw : Word} {volts V : Rat} {n : Nat} {r : Range}

/-! ### The operations -/

theorem exec_r2v_opened (hl : s.life = .opened) (hr : rangeOf n = some r) :
    exec (.r2v raw n) s =
      .next (s.returnOk (.rational (scaleRaw s.cfg.scaleArith s.vref r raw))) := by
  change execR2v raw n s = _
  simp [execR2v, whenOpen_opened hl, hr]

theorem exec_v2r_opened (hl : s.life = .opened) (hr : rangeOf n = some r) :
    exec (.v2r volts n) s =
      .next (s.returnOk (.rational (scaleVolts s.cfg.scaleArith s.vref r volts))) := by
  change execV2r volts n s = _
  simp [execV2r, whenOpen_opened hl, hr]

/-- Settles O41: the value in exact arithmetic is `rawToVolts`, and in either it is some rational.
-/
theorem rawToVoltsCompletes : Obligations.RawToVoltsCompletes := by
  intro raw n r s hl hn
  rw [exec_r2v_opened hl (rangeOf_eq_some.2 hn)]
  exact ⟨fun he => by rw [he]; rfl, _, rfl⟩

/-- Settles O42: the value in exact arithmetic is `voltsToRaw`, and in either it is some rational.
-/
theorem voltsToRawCompletes : Obligations.VoltsToRawCompletes := by
  intro volts n r s hl hn
  rw [exec_v2r_opened hl (rangeOf_eq_some.2 hn)]
  exact ⟨fun he => by rw [he]; rfl, _, rfl⟩

/-- Settles O43: a number above 8 names no range. -/
theorem scalingRangeErrors : Obligations.ScalingRangeErrors := by
  intro raw volts n s hl hn
  have hr := rangeOf_eq_none.2 hn
  constructor
  · change execR2v raw n s = _
    rw [execR2v, whenOpen_opened hl, hr]
    rfl
  · change execV2r volts n s = _
    rw [execV2r, whenOpen_opened hl, hr]
    rfl

/-! ### The functions -/

/-- Settles O40: a range's bounds are its factor, with the sign where it is bipolar. -/
theorem rangeBoundsAreTheTable : Obligations.RangeBoundsAreTheTable :=
  fun _ => ⟨⟨rfl, rfl⟩, ⟨rfl, rfl⟩, ⟨rfl, rfl⟩, ⟨rfl, rfl⟩, ⟨rfl, rfl⟩, ⟨rfl, rfl⟩, ⟨rfl, rfl⟩,
    ⟨rfl, rfl⟩, ⟨rfl, rfl⟩⟩

/-- Settles O44: span and full scale, which are not zero, cancel. -/
theorem scalingRoundTripIsExact : Obligations.ScalingRoundTripIsExact := by
  intro V v r hV
  have hspan : rangeMax r V - rangeMin r V ≠ 0 := rangeSpan_ne_zero hV
  have hscale := fullScale_ne_zero
  constructor
  · unfold rawToVolts voltsToRaw
    rw [div_mul_cancel₀ _ hspan, mul_div_cancel_right₀ _ hscale, sub_add_cancel]
  · unfold rawToVolts voltsToRaw
    rw [add_sub_cancel_right, div_mul_cancel₀ _ hscale, mul_div_cancel_right₀ _ hspan]

/-- `rawToVolts` is the lower bound plus as many steps as the raw code says. -/
theorem rawToVolts_eq (V : Rat) (r : Range) (x : Rat) :
    rawToVolts V r x = x * ((rangeMax r V - rangeMin r V) / 65535) + rangeMin r V := by
  rw [rawToVolts, mul_div_assoc]
  rfl

theorem rawToVolts_step_pos (hV : 0 < V) : 0 < (rangeMax r V - rangeMin r V) / 65535 :=
  div_pos (rangeSpan_pos hV) (by norm_num)

theorem rawToVolts_strictMono (hV : 0 < V) : StrictMono (rawToVolts V r) := by
  intro x y hxy
  rw [rawToVolts_eq, rawToVolts_eq]
  have := mul_lt_mul_of_pos_right hxy (rawToVolts_step_pos (r := r) hV)
  linarith

theorem rawToVolts_zero : rawToVolts V r 0 = rangeMin r V := by simp [rawToVolts]

theorem rawToVolts_fullScale : rawToVolts V r 65535 = rangeMax r V := by
  rw [rawToVolts_eq, mul_div_cancel₀ _ (by norm_num), sub_add_cancel]

theorem rangeMax_smul (c : Rat) : rangeMax r (c * V) = c * rangeMax r V := by
  simp only [rangeMax]
  ring

theorem rangeMin_smul (c : Rat) : rangeMin r (c * V) = c * rangeMin r V := by
  unfold rangeMin
  cases rangeBipolar r
  · exact (mul_zero c).symm
  · simp only []
    ring

/-- Settles O45: an affine function with a positive step, of bounds proportional to the reference
voltage. -/
theorem rawToVoltsIsAffineIncreasingOntoTheRange :
    Obligations.RawToVoltsIsAffineIncreasingOntoTheRange := by
  intro V r hV
  have hmono := rawToVolts_strictMono (r := r) hV
  refine ⟨fun x y hxy => hmono (by exact_mod_cast hxy), fun x hx => ⟨?_, ?_⟩, rawToVolts_zero,
    rawToVolts_fullScale, fun x => ?_, fun c x => ?_⟩
  · rw [← rawToVolts_zero]
    exact hmono.monotone (by exact_mod_cast Nat.zero_le x)
  · rw [← rawToVolts_fullScale]
    exact hmono.monotone (by exact_mod_cast hx)
  · rw [rawToVolts_eq, rawToVolts_eq]
    ring
  · rw [rawToVolts_eq, rawToVolts_eq, rangeMax_smul, rangeMin_smul]
    ring

end Sys2Proof.Machine
end

section
/-! Instances that share nothing (60_exceptions.md R232). -/

namespace Sys2Proof.Machine

variable {f g : Fleet} {i j k : Nat} {s t : State}

theorem sharesChipSelect_eq_true_iff : sharesChipSelect s t = true ↔
    s.life = .opened ∧ t.life = .opened ∧ s.busId = t.busId ∧ s.csLine = t.csLine := by
  simp [sharesChipSelect]

/-- In a fleet within the model two open instances differ in the bus or in the chip-select line. -/
theorem lines_differ (h : ownChipSelects f = true) (hij : i ≠ j) (hi : f[i]? = some s)
    (hj : f[j]? = some t) (hs : s.life = .opened) (ht : t.life = .opened) :
    ¬ (s.busId = t.busId ∧ s.csLine = t.csLine) := by
  intro hline
  have hno := ownChipSelects_iff.1 h i j s t hij hi hj
  rw [sharesChipSelect_eq_true_iff.2 ⟨hs, ht, hline⟩] at hno
  cases hno

/-- Settles O56: a fleet's step replaces one member by that member's own step, between fleets
within the model; a fleet with a clash is outside it. -/
theorem instancesShareNoState : Obligations.InstancesShareNoState := by
  refine ⟨fun k f g hstep => ?_, fun k i j f s a b hs hn hij hi hj ha hb hbus hline => ?_⟩
  · obtain ⟨s, t, hs, ht, rfl, htf, hcf, htg, hcg⟩ := fleetStep_eq_next.1 hstep
    have hk : k < f.length := (List.getElem?_eq_some_iff.1 hs).1
    refine ⟨List.length_set, fun j hj => List.getElem?_set_ne hj.symm,
      ⟨s, t, hs, ht, List.getElem?_set_self hk⟩, ?_⟩
    rintro h (rfl | rfl)
    · exact ⟨ownTransports_iff.1 htf, fun i j a b => lines_differ hcf⟩
    · exact ⟨ownTransports_iff.1 htg, fun i j a b => lines_differ hcg⟩
  · refine fleetStep_clash hs (ownTransports_iff.2 hn) ?_
    rw [← Bool.not_eq_true]
    exact fun h => lines_differ h hij hi hj ha hb ⟨hbus, hline⟩

end Sys2Proof.Machine
end

section
/-! What a helper leaves: refused, completed or aborted, and the primitive operations it is made of
(43_channel_config.md R172 to R177; 30_encoding.md R87). -/

namespace Sys2Proof.Machine

variable {i : Instr} {s : State} {cfg : Config} {ws : List (Nat × Byte)} {addr ch r : Nat}

/-! ### The writes of a helper -/

/-- The composite helpers are `SETGRANGE` and `SETSEQPD`; each other helper is one write. -/
theorem helperWrites_length (h : helperWrites cfg i = some ws) :
    ws.length = 1 ∨ ((∃ r, i = .setgrange r) ∧ ws.length = 8) ∨
      ((∃ m, i = .setseqpd m) ∧ ws.length = 2) := by
  cases i <;> simp only [helperWrites, Option.some.injEq, reduceCtorEq] at h
  case setrange ch r =>
    split at h
    · cases h
    · obtain ⟨range, -, rfl⟩ := Option.map_eq_some_iff.1 h
      exact .inl rfl
  case setgrange r =>
    obtain ⟨range, -, rfl⟩ := Option.map_eq_some_iff.1 h
    exact .inr (.inl ⟨⟨r, rfl⟩, rfl⟩)
  case setseqpd m =>
    subst h
    exact .inr (.inr ⟨⟨m, rfl⟩, rfl⟩)
  all_goals
    subst h
    exact .inl rfl

theorem helperWrites_ne_nil (h : helperWrites cfg i = some ws) : ws ≠ [] := by
  rintro rfl
  simpa using helperWrites_length h

theorem helperWrites_setrange {range : Range} (hch : ch ≤ 7) (hr : rangeOf r = some range) :
    helperWrites cfg (.setrange ch r) = some [rangeWrite cfg range ch] := by
  simp [helperWrites, Nat.not_lt.2 hch, hr]

theorem helperWrites_setgrange {range : Range} (hr : rangeOf r = some range) :
    helperWrites cfg (.setgrange r) = some (globalRangeWrites cfg range) := by
  simp [helperWrites, hr]

/-- A helper on an open driver is its writes, where their registers admit them. -/
theorem exec_helper_opened (hl : s.life = .opened) (hi : helperWrites s.cfg i = some ws)
    (hw : allWritable s.cfg ws = true) : exec i s = (writeRegs ws s).finish fun _ => .unit := by
  rw [exec_helper hi, whenOpen_opened hl, runWrites_writable hw]

/-! ### Operand errors -/

theorem exec_setrange_channel (hl : s.life = .opened) (hch : 7 < ch) :
    exec (.setrange ch r) s = .next (s.returnErr (.invalidChannel ch)) := by
  change execSetrange ch r s = _
  rw [execSetrange, whenOpen_opened hl, if_pos hch]

theorem exec_setrange_range (hl : s.life = .opened) (hch : ch ≤ 7) (hr : 8 < r) :
    exec (.setrange ch r) s = .next (s.returnErr (.invalidRange r)) := by
  change execSetrange ch r s = _
  rw [execSetrange, whenOpen_opened hl, if_neg (Nat.not_lt.2 hch), rangeOf_eq_none.2 hr]

theorem exec_setgrange_range (hl : s.life = .opened) (hr : 8 < r) :
    exec (.setgrange r) s = .next (s.returnErr (.invalidRange r)) := by
  change execSetgrange r s = _
  rw [execSetgrange, whenOpen_opened hl, rangeOf_eq_none.2 hr]

theorem exec_helper_refused (hl : s.life = .opened) (hi : helperWrites s.cfg i = some ws)
    (hw : firstRefused s.cfg ws = some addr) :
    exec i s = .next (s.returnErr (.invalidRegister addr)) := by
  rw [exec_helper hi, whenOpen_opened hl, runWrites, hw]

/-- Settles O32: the checks of the helpers in their order, and the first refused write. -/
theorem helperOperandErrors : Obligations.HelperOperandErrors :=
  ⟨by decide,
    fun _ _ _ hl => ⟨exec_setrange_channel hl, exec_setrange_range hl, exec_setgrange_range hl⟩,
    fun _ _ k _ v _ hl hi hk htake hno =>
      exec_helper_refused hl hi (firstRefused_eq_some.2 ⟨k, v, hk, htake, hno⟩)⟩

/-! ### Completed and aborted helpers -/

/-- Settles O27: the served writes, of which a helper has at least one. -/
theorem helperCompletes : Obligations.HelperCompletes := by
  intro i ws s rs rest hl hi hw hlen hrs h
  rw [exec_helper_opened hl hi hw, writeRegs_served hw hlen hrs h]
  simp [helperWrites_ne_nil hi, State.returnOk]

/-- Settles O30: the writes completed before the failed one, and the aborted part of that. -/
theorem abortedHelperKeepsItsEarlierWrites : Obligations.AbortedHelperKeepsItsEarlierWrites := by
  intro i ws s t c hi hx hr
  rw [exec_helper hi, whenOpen_eq_next] at hx
  rcases runWrites_next hx.2 with ⟨addr, -, rfl⟩ | ⟨hw, ⟨u, -, rfl⟩ | ⟨e, u, hd, rfl⟩⟩
  · simp at hr
  · simp at hr
  · obtain rfl : e = .transport c := by simpa using hr
    obtain ⟨k, w, rs, es, call, hk, hlen, -, ha, he, hm⟩ := writeRegs_aborted hw hd
    obtain rfl : c = call := by simpa using he
    obtain ⟨fs, f, rfl, hf, -, -, hall, hout⟩ := ha.last
    exact ⟨k, w, rs, fs, f, hk, hlen, by simpa using hm.trace, hf, hall, hout, hm.mode, hm.cs,
      hm.pc⟩

/-! ### The frames under the default parameters -/

/-- The nine range codes, in the order of the enumerators (43_channel_config.md R170). -/
theorem rangeCodeOf_default (hr : r ≤ 8) : ∃ range, rangeOf r = some range ∧
    rangeCodeOf defaultConfig range =
      [0x00, 0x01, 0x02, 0x03, 0x0B, 0x05, 0x06, 0x07, 0x0F].getD r 0 := by
  interval_cases r <;> exact ⟨_, rfl, rfl⟩

theorem writeFrame_default_range (range : Range) (ch : Nat) :
    writeFrame (rangeWrite defaultConfig range ch).1 (rangeWrite defaultConfig range ch).2 =
      [BitVec.ofNat 8 (0x0B + 2 * ch), rangeCodeOf defaultConfig range, 0x00] := by
  rw [writeFrame, registerByte0_write]
  congr 2
  change 2 * (5 + ch) + 1 = 11 + 2 * ch
  omega

theorem writeFrame_one (m : Byte) : writeFrame 0x01 m = [0x03, m, 0x00] := by
  simp [writeFrame, registerByte0_write]

theorem writeFrame_two (m : Byte) : writeFrame 0x02 m = [0x05, m, 0x00] := by
  simp [writeFrame, registerByte0_write]

/-- Settles O29: the write frames of each helper's writes. -/
theorem helperFramesUnderTheDefaults : Obligations.HelperFramesUnderTheDefaults := by
  intro i frames s t v hcfg hx hr hi
  suffices hws : ∃ ws, helperWrites defaultConfig i = some ws ∧
      ws.map (fun w => writeFrame w.1 w.2) = frames by
    obtain ⟨ws, hws, rfl⟩ := hws
    exact exec_helper_ok_outBytes (hcfg ▸ hws) hx hr
  rcases hi with ⟨ch, r, hch, hr8, rfl, rfl⟩ | ⟨r, c, hr8, rfl, rfl, rfl⟩ | ⟨m, rfl, rfl⟩ |
    ⟨m, rfl, rfl⟩ | ⟨m, rfl, rfl⟩
  · obtain ⟨range, hrange, hcode⟩ := rangeCodeOf_default hr8
    refine ⟨_, helperWrites_setrange hch hrange, ?_⟩
    rw [List.map_singleton, writeFrame_default_range, hcode]
  · obtain ⟨range, hrange, hcode⟩ := rangeCodeOf_default hr8
    refine ⟨_, helperWrites_setgrange hrange, ?_⟩
    rw [globalRangeWrites, List.map_map, ← hcode]
    exact List.map_congr_left fun ch _ => writeFrame_default_range range ch
  · exact ⟨_, rfl, congrArg (fun frame => [frame]) (writeFrame_one m)⟩
  · exact ⟨_, rfl, congrArg (fun frame => [frame]) (writeFrame_two m)⟩
  · exact ⟨_, rfl, congrArg₂ (fun seq pd => [seq, pd]) (writeFrame_one m) (writeFrame_two _)⟩

/-! ### Expansions -/

variable {is : List Instr}

/-- Only the helpers have an expansion. -/
theorem expansion_isHelper (h : expansion cfg i = some is) :
    (∃ ch r, i = .setrange ch r) ∨ (∃ r, i = .setgrange r) ∨ (∃ m, i = .setseq m) ∨
      (∃ m, i = .setpd m) ∨ (∃ m, i = .setseqpd m) := by
  cases i <;> simp [expansion] at h ⊢

/-- The operands that give an expansion are those that give writes. -/
theorem helperWrites_of_expansion (h : expansion cfg i = some is) :
    ∃ ws, helperWrites cfg i = some ws := by
  rcases expansion_isHelper h with ⟨ch, r, rfl⟩ | ⟨r, rfl⟩ | ⟨m, rfl⟩ | ⟨m, rfl⟩ | ⟨m, rfl⟩
  · simp only [expansion] at h
    split at h
    · cases h
    · obtain ⟨range, hr, -⟩ := Option.map_eq_some_iff.1 h
      exact ⟨_, helperWrites_setrange (by omega) hr⟩
  · obtain ⟨range, hr, -⟩ := Option.map_eq_some_iff.1 h
    exact ⟨_, helperWrites_setgrange hr⟩
  · exact ⟨_, rfl⟩
  · exact ⟨_, rfl⟩
  · exact ⟨_, rfl⟩

/-- The operations of the list perform the writes of the other list, each its own part. -/
def PerformsEach (cfg : Config) (is : List Instr) (wss : List (List (Nat × Byte))) : Prop :=
  is.length = wss.length ∧ ∀ (j : Nat) (i : Instr), is[j]? = some i → ∃ w, wss[j]? = some w ∧
    ∀ s : State, s.life = .opened → s.cfg = cfg → Performs i w s

theorem PerformsEach.nil : PerformsEach cfg [] [] := ⟨rfl, by simp⟩

theorem PerformsEach.cons {wss : List (List (Nat × Byte))}
    (hi : ∀ s : State, s.life = .opened → s.cfg = cfg → Performs i ws s)
    (h : PerformsEach cfg is wss) : PerformsEach cfg (i :: is) (ws :: wss) := by
  obtain ⟨hlen, h⟩ := h
  refine ⟨by simp [hlen], fun j i' hj => ?_⟩
  cases j with
  | zero =>
    obtain rfl : i = i' := by simpa using hj
    exact ⟨ws, rfl, hi⟩
  | succ j => exact h j i' (by simpa using hj)

theorem PerformsEach.map (f : Nat → Instr) (g : Nat → List (Nat × Byte)) (l : List Nat)
    (h : ∀ n ∈ l, ∀ s : State, s.life = .opened → s.cfg = cfg → Performs (f n) (g n) s) :
    PerformsEach cfg (l.map f) (l.map g) := by
  induction l with
  | nil => exact .nil
  | cons n l ih =>
    exact .cons (h n (List.mem_cons_self ..)) (ih fun k hk => h k (List.mem_cons_of_mem _ hk))

/-- The operations of an expansion perform the helper's writes, each its own part. -/
theorem expansion_performs (h : expansion cfg i = some is) (hi : helperWrites cfg i = some ws)
    (hw : allWritable cfg ws = true) :
    is ≠ [] ∧ ∃ wss, wss.flatten = ws ∧ PerformsEach cfg is wss := by
  rcases expansion_isHelper h with ⟨ch, r, rfl⟩ | ⟨r, rfl⟩ | ⟨m, rfl⟩ | ⟨m, rfl⟩ | ⟨m, rfl⟩
  · simp only [expansion] at h
    split at h
    · cases h
    obtain ⟨range, hr, rfl⟩ := Option.map_eq_some_iff.1 h
    cases hi.symm.trans (helperWrites_setrange (by omega) hr)
    exact ⟨List.cons_ne_nil _ _, [[rangeWrite cfg range ch]], rfl,
      .cons (fun s hl _ => performs_wreg _ _ hl) .nil⟩
  · obtain ⟨range, hr, rfl⟩ := Option.map_eq_some_iff.1 h
    cases hi.symm.trans (helperWrites_setgrange hr)
    refine ⟨by simp, (List.range 8).map fun ch => [rangeWrite cfg range ch], rfl, .map _ _ _ ?_⟩
    intro ch hch s hl hc
    have hok : registerOk cfg (rangeWrite cfg range ch).1 .write = true :=
      List.all_eq_true.1 hw _ (List.mem_map_of_mem hch)
    refine performs_helper ?_ ?_ hl
    · exact hc ▸ helperWrites_setrange (by have := List.mem_range.1 hch; omega) hr
    · simpa [allWritable, hc] using hok
  · cases h
    cases hi
    exact ⟨List.cons_ne_nil _ _, [_], rfl, .cons (fun s hl _ => performs_wreg _ _ hl) .nil⟩
  · cases h
    cases hi
    exact ⟨List.cons_ne_nil _ _, [_], rfl, .cons (fun s hl _ => performs_wreg _ _ hl) .nil⟩
  · cases h
    cases hi
    obtain ⟨hseq, hpd⟩ : registerOk cfg cfg.regAutoSeqEn .write = true ∧
        registerOk cfg cfg.regChPwrDn .write = true := by
      simpa [allWritable, sequencePowerWrites] using hw
    refine ⟨List.cons_ne_nil _ _, [[_], [_]], rfl, .cons ?_ (.cons ?_ .nil)⟩
    · rintro s hl rfl
      exact performs_helper rfl (by simpa [allWritable] using hseq) hl
    · rintro s hl rfl
      exact performs_helper rfl (by simpa [allWritable] using hpd) hl

theorem helperReturn_of_running {u : State} (h : u.stopped = false) :
    helperReturn s u = u.host (some (.ok .unit)) (s.pc + 1) := by
  simp [helperReturn, h, State.host]

theorem helperReturn_of_err {u : State} {e : Err} (h : u.result = some (.err e)) :
    helperReturn s u = u.host (some (.err e)) s.pc := by
  simp [helperReturn, State.stopped, h, State.host]

/-- A helper and its expansion both hang, or both answer a state, which differs in what the helper
returns alone. -/
theorem exec_eq_expansion (hl : s.life = .opened) (h : expansion s.cfg i = some is)
    (hi : helperWrites s.cfg i = some ws) (hw : allWritable s.cfg ws = true) :
    (∃ u, execUntilErr is s = .next u ∧ exec i s = .next (helperReturn s u)) ∨
      (execUntilErr is s = .fault .transportHang ∧ exec i s = .fault .transportHang) := by
  obtain ⟨hne, wss, hflat, hlen, hp⟩ := expansion_performs h hi hw
  have hrun := execUntilErr_performs hp hlen s hl rfl fun h => absurd h hne
  rw [hflat] at hrun
  rw [exec_helper_opened hl hi hw]
  cases hd : writeRegs ws s with
  | done a t =>
    obtain ⟨-, rs, -, -, hm⟩ := writeRegs_done hd
    simp only [hd] at hrun
    obtain ⟨u, hu, hst, hhost⟩ := hrun
    refine .inl ⟨u, hu, ?_⟩
    rw [helperReturn_of_running hst, hhost, ← hm.pc]
    rfl
  | raised e t =>
    obtain ⟨k, w, rs, es, call, -, -, -, -, -, hm⟩ := writeRegs_aborted hw hd
    simp only [hd] at hrun
    obtain ⟨u, hu, hres, hhost⟩ := hrun
    refine .inl ⟨u, hu, ?_⟩
    rw [helperReturn_of_err hres, hhost, ← hm.pc]
    rfl
  | hung =>
    simp only [hd] at hrun
    exact .inr ⟨hrun, rfl⟩

/-- Settles O28: the expansion performs the helper's writes; what has no expansion has an operand
error. -/
theorem helperIsItsExpansion : Obligations.HelperIsItsExpansion := by
  refine ⟨fun i is ws s hl h hi hw => ?_, fun i is s hl h => ?_,
    fun ch r s hl => ⟨fun h => ?_, fun h => ?_⟩, fun i cfg is => expansion_isHelper⟩
  · obtain ⟨u, hu, hx⟩ | ⟨hu, hx⟩ := exec_eq_expansion hl h hi hw
    · rw [hx, hu]
    · rw [hx, hu]
  · obtain ⟨ws, hi⟩ := helperWrites_of_expansion h
    refine ⟨ws, hi, fun hw => ?_⟩
    have hno : firstRefused s.cfg ws ≠ none := by simp [Ne, firstRefused_eq_none, hw]
    obtain ⟨addr, haddr⟩ := Option.ne_none_iff_exists'.1 hno
    obtain ⟨-, -, -, -, hok⟩ := firstRefused_eq_some.1 haddr
    exact ⟨addr, exec_helper_refused hl hi haddr, hok⟩
  · by_cases hch : 7 < ch
    · exact ⟨_, exec_setrange_channel hl hch⟩
    · have hr : rangeOf r = none := by simpa [expansion, hch] using h
      exact ⟨_, exec_setrange_range hl (by omega) (rangeOf_eq_none.1 hr)⟩
  · have hr : rangeOf r = none := by simpa [expansion] using h
    exact ⟨_, exec_setgrange_range hl (rangeOf_eq_none.1 hr)⟩

end Sys2Proof.Machine
end

section
/-! The delays and the mode of every operation that answers a next state (70_reset_and_hazards.md
R252;
10_state.md R25). -/

namespace Sys2Proof.Machine

variable {i : Instr} {s t : State} {cmd : Cmd}

/-! ### Only commands wait -/

/-- Register operations wait nowhere, completed or aborted (decision D9). -/
theorem exec_registerOp_delayCount (h : isRegisterOp i = true) (hx : exec i s = .next t) :
    ∃ es, t.trace = s.trace ++ es ∧ delayCount es = 0 := by
  obtain ⟨-, ⟨addr, x, -, ⟨b, u, hd, rfl⟩ | ⟨e, u, hd, rfl⟩⟩ |
    ⟨addr, -, ⟨b, u, hd, rfl⟩ | ⟨e, u, hd, rfl⟩⟩ |
    ⟨ws, -, -, hall, ⟨u, hd, rfl⟩ | ⟨e, u, hd, rfl⟩⟩ | ⟨e, -, -, rfl⟩⟩ :=
    exec_registerOp_next h hx
  · obtain ⟨-, reply, -, -, hm⟩ := writeReg_done hd
    exact ⟨_, hm.trace, rfl⟩
  · obtain ⟨-, -, rfl⟩ | ⟨-, es, call, ha, -, hm⟩ := writeReg_raised hd
    · exact ⟨[], by simp, rfl⟩
    · obtain ⟨-, -, -, -, -, hdelay, -⟩ := ha.last
      exact ⟨es, hm.trace, hdelay⟩
  · obtain ⟨-, reply, -, -, hm⟩ := readReg_done hd
    exact ⟨_, hm.trace, rfl⟩
  · obtain ⟨-, -, rfl⟩ | ⟨-, es, call, ha, -, hm⟩ := readReg_raised hd
    · exact ⟨[], by simp, rfl⟩
    · obtain ⟨-, -, -, -, -, hdelay, -⟩ := ha.last
      exact ⟨es, hm.trace, hdelay⟩
  · obtain ⟨-, rs, -, -, hm⟩ := writeRegs_done hd
    exact ⟨_, hm.trace, writeEvents_delayCount ws rs⟩
  · obtain ⟨k, w, rs, es, call, -, -, -, ha, -, hm⟩ := writeRegs_aborted hall hd
    obtain ⟨-, -, -, -, -, hdelay, -⟩ := ha.last
    exact ⟨_, hm.trace, by rw [delayCount_append, writeEvents_delayCount, hdelay]⟩
  · exact ⟨[], by simp, rfl⟩

theorem OpenAbort.delayCount {b d z : Rat} {es : List Event} {c : FailedCall}
    (h : OpenAbort b d z es c) : delayCount es = 0 := by
  cases h with
  | onOpen | onConfigure | onDeassert => rfl

/-- Settles O16: of the kinds of operations, only commands append a delay. -/
theorem onlyCommandsWait : Obligations.OnlyCommandsWait := by
  intro i s t hno hx
  rcases instr_kinds i with ⟨cmd, hc⟩ | ⟨ch, rfl, hch⟩ | h | h | h | rfl
  · cases hno.symm.trans hc
  · obtain ⟨-, rfl⟩ := exec_manAux_illegal_next hch hx
    exact ⟨[], by simp, rfl⟩
  · exact exec_registerOp_delayCount h hx
  · obtain ⟨-, ⟨v, rfl⟩ | ⟨n, -, rfl⟩⟩ := exec_hostOnly_next h hx
    · exact ⟨[], by simp, rfl⟩
    · exact ⟨[], by simp, rfl⟩
  · cases i <;> simp only [isOpenOp, Bool.false_eq_true] at h
    obtain ⟨-, -, ⟨u, hd, rfl⟩ | ⟨e, u, hd, rfl⟩⟩ := exec_open_next hx
    · obtain ⟨u, hm, rfl⟩ := openTxn_done hd
      exact ⟨_, hm.trace, rfl⟩
    · obtain ⟨es, call, ha, -, hm⟩ := openTxn_raised hd
      exact ⟨es, hm.trace, ha.delayCount⟩
  · obtain ⟨-, rfl⟩ | ⟨-, ⟨u, hd, rfl⟩ | ⟨e, u, hd, rfl⟩⟩ := exec_close_next hx
    · exact ⟨[], by simp, rfl⟩
    · obtain ⟨u, hm, rfl⟩ := closeTxn_done hd
      exact ⟨_, hm.trace, rfl⟩
    · obtain ⟨-, u, hm, rfl⟩ := closeTxn_raised hd
      exact ⟨_, hm.trace, rfl⟩

/-! ### The causes of a change of mode -/

/-- How an operation that may write the mode ended: with `Ok` in the mode `m`, with an error in
the mode
it found, or, of the composite helpers, with a transport failure after a completed write. -/
inductive ModeOutcome (i : Instr) (s t : State) (m : Mode) : Prop where
  | ok (v : Value) (hr : t.result = some (.ok v)) (hm : t.mode = m)
  | kept (e : Err) (hr : t.result = some (.err e)) (hm : t.mode = s.mode)
  | partly (c : FailedCall) (hi : (∃ r, i = .setgrange r) ∨ ∃ m, i = .setseqpd m)
      (hr : t.result = some (.err (.transport c))) (hm : t.mode = .program)

theorem exec_command_modeOutcome (hc : commandOf i = some cmd) (hx : exec i s = .next t) :
    ModeOutcome i s t (s.mode.next cmd) := by
  obtain ⟨-, ⟨w, u, hd, rfl⟩ | ⟨e, u, hd, rfl⟩⟩ := exec_command_next hc hx
  · obtain ⟨in1, in2, -, -, -, hm⟩ := cmdTxn_done hd
    exact .ok _ rfl hm.mode
  · obtain ⟨es, call, -, -, hm⟩ := cmdTxn_raised hd
    exact .kept e rfl hm.mode

/-- A helper's writes aborted in write `k`: a `k` other than 0 is a composite helper's. -/
theorem modeOutcome_of_aborted {ws : List (Nat × Byte)} {u : State} {e : Err}
    (hi : helperWrites s.cfg i = some ws) (hall : allWritable s.cfg ws = true)
    (hd : writeRegs ws s = .raised e u) : ModeOutcome i s (u.returnErr e) .program := by
  obtain ⟨k, w, rs, es, call, hk, -, -, -, rfl, hm⟩ := writeRegs_aborted hall hd
  have hmode := hm.mode
  split at hmode
  · exact .kept _ rfl hmode
  · rename_i hk0
    have hlt : k < ws.length := (List.getElem?_eq_some_iff.1 hk).1
    refine .partly call ?_ rfl hmode
    rcases helperWrites_length hi with hlen | ⟨hr, -⟩ | ⟨hm, -⟩
    · omega
    · exact .inl hr
    · exact .inr hm

theorem exec_registerOp_modeOutcome (h : isRegisterOp i = true) (hx : exec i s = .next t) :
    ModeOutcome i s t .program := by
  obtain ⟨-, ⟨addr, x, -, ⟨b, u, hd, rfl⟩ | ⟨e, u, hd, rfl⟩⟩ |
    ⟨addr, -, ⟨b, u, hd, rfl⟩ | ⟨e, u, hd, rfl⟩⟩ |
    ⟨ws, hne, hi, hall, ⟨u, hd, rfl⟩ | ⟨e, u, hd, rfl⟩⟩ | ⟨e, -, -, rfl⟩⟩ :=
    exec_registerOp_next h hx
  · obtain ⟨-, reply, -, -, hm⟩ := writeReg_done hd
    exact .ok _ rfl hm.mode
  · obtain ⟨-, -, rfl⟩ | ⟨-, es, call, -, -, hm⟩ := writeReg_raised hd
    · exact .kept e rfl rfl
    · exact .kept e rfl hm.mode
  · obtain ⟨-, reply, -, -, hm⟩ := readReg_done hd
    exact .ok _ rfl hm.mode
  · obtain ⟨-, -, rfl⟩ | ⟨-, es, call, -, -, hm⟩ := readReg_raised hd
    · exact .kept e rfl rfl
    · exact .kept e rfl hm.mode
  · obtain ⟨-, rs, -, -, hm⟩ := writeRegs_done hd
    exact .ok _ rfl (hm.mode.trans (if_neg hne))
  · exact modeOutcome_of_aborted hi hall hd
  · exact .kept e rfl rfl

/-- On an open driver every operation that is no command and no register operation keeps the mode.
-/
theorem exec_other_keeps_mode (hl : s.life = .opened) (hc : commandOf i = none)
    (hr : isRegisterOp i = false) (hx : exec i s = .next t) : t.mode = s.mode := by
  rcases exec_next_mode hx with h | ⟨cmd, h, -⟩ | ⟨h, -⟩ | ⟨h, -⟩
  · exact h
  · cases hc.symm.trans h
  · cases hr.symm.trans h
  · cases i <;> simp only [isOpenOp, Bool.false_eq_true] at h
    obtain ⟨hclosed, -⟩ := exec_open_next hx
    cases hl.symm.trans hclosed

/-- On a closed driver only `OPEN` writes the mode. -/
theorem exec_closed_mode (hl : s.life = .closed) (hx : exec i s = .next t) :
    t.mode = s.mode ∨ (isOpenOp i = true ∧ t.mode = .idle) := by
  by_cases hop : isOpenOp i = true ∨ i = .close
  · rcases hop with ho | rfl
    · have hno : commandOf i = none ∧ isRegisterOp i = false := by
        cases i <;> simp [isOpenOp, commandOf, isRegisterOp] at ho ⊢
      rcases exec_next_mode hx with h | ⟨cmd, h, -⟩ | ⟨h, -⟩ | h
      · exact .inl h
      · cases hno.1.symm.trans h
      · cases hno.2.symm.trans h
      · exact .inr h
    · obtain ⟨-, rfl⟩ | ⟨h, -⟩ := exec_close_next hx
      · exact .inl rfl
      · cases hl.symm.trans h
  · obtain ⟨ho, hc⟩ := not_or.1 hop
    rw [exec_closed hc (Bool.not_eq_true _ ▸ ho) hl] at hx
    cases hx

theorem ModeOutcome.mode_of_ok {m : Mode} {v : Value} (h : ModeOutcome i s t m)
    (hr : t.result = some (.ok v)) : t.mode = m := by
  cases h with
  | ok _ _ hm => exact hm
  | kept e he => cases hr.symm.trans he
  | partly c _ he => cases hr.symm.trans he

theorem ModeOutcome.mode_of_err {m : Mode} {e : Err} (h : ModeOutcome i s t m)
    (hr : t.result = some (.err e)) (h1 : ∀ r, i ≠ .setgrange r) (h2 : ∀ m, i ≠ .setseqpd m) :
    t.mode = s.mode := by
  cases h with
  | ok _ hv => cases hr.symm.trans hv
  | kept _ _ hm => exact hm
  | partly _ hi =>
    obtain ⟨r, hr⟩ | ⟨m, hm⟩ := hi
    · exact absurd hr (h1 r)
    · exact absurd hm (h2 m)

/-- A mode that changed on an open driver is a completed command's transition, or Program by a
register operation that completed or was aborted after a completed write. -/
theorem exec_mode_changed (hl : s.life = .opened) (hx : exec i s = .next t)
    (hne : t.mode ≠ s.mode) :
    (∃ cmd v, commandOf i = some cmd ∧ t.result = some (.ok v) ∧ t.mode = s.mode.next cmd) ∨
      (isRegisterOp i = true ∧ t.mode = .program ∧ ((∃ v, t.result = some (.ok v)) ∨
        ((∃ r, i = .setgrange r) ∨ ∃ m, i = .setseqpd m) ∧
          ∃ c, t.result = some (.err (.transport c)))) := by
  cases hreg : isRegisterOp i with
  | true =>
    cases exec_registerOp_modeOutcome hreg hx with
    | ok v hr hm => exact .inr ⟨rfl, hm, .inl ⟨v, hr⟩⟩
    | kept e _ hm => exact absurd hm hne
    | partly c hi hr hm => exact .inr ⟨rfl, hm, .inr ⟨hi, c, hr⟩⟩
  | false =>
    cases hc : commandOf i with
    | none => exact absurd (exec_other_keeps_mode hl hc hreg hx) hne
    | some cmd =>
      cases exec_command_modeOutcome hc hx with
      | ok v hr hm => exact .inl ⟨cmd, v, rfl, hr, hm⟩
      | kept e _ hm => exact absurd hm hne
      | partly c hi => obtain ⟨r, rfl⟩ | ⟨m, rfl⟩ := hi <;> cases hc

/-- An operation other than the composite helpers that ends in an error keeps the mode. -/
theorem exec_err_keeps_mode {e : Err} (hl : s.life = .opened) (hx : exec i s = .next t)
    (hr : t.result = some (.err e)) (h1 : ∀ r, i ≠ .setgrange r) (h2 : ∀ m, i ≠ .setseqpd m) :
    t.mode = s.mode := by
  cases hreg : isRegisterOp i with
  | true => exact (exec_registerOp_modeOutcome hreg hx).mode_of_err hr h1 h2
  | false =>
    cases hc : commandOf i with
    | none => exact exec_other_keeps_mode hl hc hreg hx
    | some cmd => exact (exec_command_modeOutcome hc hx).mode_of_err hr h1 h2

/-- Settles O50: the ways a command and a register operation end, and that no other operation writes
the mode of an open driver. -/
theorem modeChangesOnlyByItsTwoCauses : Obligations.ModeChangesOnlyByItsTwoCauses :=
  ⟨fun _ _ _ hl hx => ⟨exec_mode_changed hl hx, fun _ => exec_err_keeps_mode hl hx,
      fun _ _ hc => (exec_command_modeOutcome hc hx).mode_of_ok,
      fun _ hreg => (exec_registerOp_modeOutcome hreg hx).mode_of_ok⟩,
    fun _ _ _ hl hx hne => (exec_closed_mode hl hx).resolve_left hne⟩

end Sys2Proof.Machine
end

section
/-! The operations with legal operands, as the attempt each one is: what serves it, and when it
hangs (00_scope.md R14; 60_exceptions.md R233; 40_lifecycle.md R103). -/

namespace Sys2Proof.Machine

variable {i : Instr} {s t : State} {rest : List Answer} {r : Fault}

/-! ### What a legal operation runs -/

/-- The attempt an operation with legal operands is, on a driver of the life it runs in. -/
inductive Runs (i : Instr) (s : State) : Prop where
  | command (cmd : Cmd) (hc : commandOf i = some cmd)
      (hx : exec i s = (cmdTxn cmd s).finish .u16)
  | access (frame : List Byte) (h3 : frame.length = 3)
      (hr : replyLengths s.cfg s.mode i = [0, 3, 0]) (hx : exec i s = (regTxn frame s).finish .u8)
  | writes (ws : List (Nat × Byte)) (hi : helperWrites s.cfg i = some ws)
      (hw : allWritable s.cfg ws = true) (hx : exec i s = (writeRegs ws s).finish fun _ => .unit)
  | hostOnly (v : Value) (hi : isHostOnly i = true) (hx : exec i s = .next (s.returnOk v))
  | opens (b d c v z : Rat) (hi : i = .openInst b d c v z)
      (hx : exec i s = (openTxn b d c v z s).finish fun _ => .unit)
  | closes (hi : i = .close) (hx : exec i s = (closeTxn s).finish fun _ => .unit)

theorem registerOp_runs (hi : isRegisterOp i = true) (hl : s.life = .opened)
    (h : operandsLegal s.cfg i = true) : Runs i s := by
  by_cases hacc : (∃ addr x, i = .wreg addr x) ∨ ∃ addr, i = .rreg addr
  · obtain ⟨addr, x, rfl⟩ | ⟨addr, rfl⟩ := hacc
    · exact .access (writeFrame addr x) rfl rfl (exec_wreg_opened hl h)
    · exact .access (readFrame addr) rfl rfl (exec_rreg_opened hl h)
  · obtain ⟨hw, hr⟩ := not_or.1 hacc
    obtain ⟨ws, hws, hall⟩ := helperWrites_of_legal hi (fun a v h => hw ⟨a, v, h⟩)
      (fun a h => hr ⟨a, h⟩) h
    exact .writes ws hws hall (exec_helper_opened hl hws hall)

theorem hostOnly_runs (hi : isHostOnly i = true) (hl : s.life = .opened)
    (h : operandsLegal s.cfg i = true) : Runs i s := by
  cases i <;> simp only [isHostOnly, Bool.false_eq_true] at hi
  case getmode | getfeat => exact .hostOnly _ rfl (whenOpen_opened hl)
  case r2v raw n =>
    obtain ⟨range, hr⟩ := Option.isSome_iff_exists.1 h
    exact .hostOnly _ rfl (exec_r2v_opened hl hr)
  case v2r volts n =>
    obtain ⟨range, hr⟩ := Option.isSome_iff_exists.1 h
    exact .hostOnly _ rfl (exec_v2r_opened hl hr)

theorem runs_of_legal (hl : s.life = lifeFor i) (h : operandsLegal s.cfg i = true) : Runs i s := by
  cases ho : isOpenOp i with
  | true =>
    cases i <;> simp only [isOpenOp, Bool.false_eq_true] at ho
    exact .opens _ _ _ _ _ rfl (exec_open_closed hl (of_decide_eq_true h))
  | false =>
    have hopen : s.life = .opened := by rw [hl, lifeFor, ho]
    rcases instr_kinds i with ⟨cmd, hc⟩ | ⟨ch, rfl, hch⟩ | hi | hi | hi | rfl
    · exact .command cmd hc (exec_command_opened hc hopen)
    · exact absurd (of_decide_eq_true h) (Nat.not_lt.2 hch)
    · exact registerOp_runs hi hopen h
    · exact hostOnly_runs hi hopen h
    · cases ho.symm.trans hi
    · exact .closes rfl (exec_close_opened hopen)

/-! ### Served operations -/

theorem replyLengths_command {cmd : Cmd} {cfg : Config} {pre : Mode} (hc : commandOf i = some cmd) :
    replyLengths cfg pre i = [0, 2] ++ (if pre.echoes then [2] else []) ++ [0] := by
  simp [replyLengths, hc]

theorem replyLengths_helper {cfg : Config} {pre : Mode} {ws : List (Nat × Byte)}
    (hi : helperWrites cfg i = some ws) :
    replyLengths cfg pre i = ws.flatMap fun _ => [0, 3, 0] := by
  have hc : commandOf i = none := by
    cases i <;> simp [helperWrites] at hi <;> rfl
  simp [replyLengths, hc, hi]

theorem replyLengths_hostOnly {cfg : Config} {pre : Mode} (hi : isHostOnly i = true) :
    replyLengths cfg pre i = [] := by
  cases i <;> simp only [isHostOnly, Bool.false_eq_true] at hi <;> rfl

/-- The operation completes with `Ok` and takes the next `n` answers. -/
def CompletesTaking (n : Nat) (i : Instr) (s : State) : Prop :=
  ∃ (t : State) (v : Value), exec i s = .next t ∧ t.result = some (.ok v) ∧ t.pc = s.pc + 1 ∧
    t.answers = s.answers.drop n

/-- An operation whose attempt completed answers a next state with `Ok`. -/
theorem exec_ok_of_done {α : Type} {m : Attempt α} {w : α → Value} {a : α} {u : State} {n : Nat}
    (hx : exec i s = m.finish w) (hm : m = .done a u) (ha : u.answers = s.answers.drop n)
    (hpc : u.pc = s.pc) : CompletesTaking n i s :=
  ⟨u.returnOk (w a), w a, by rw [hx, hm, Attempt.finish_done], rfl, congrArg (· + 1) hpc, ha⟩

theorem Runs.served (h : Runs i s) (hs : serves (replyLengths s.cfg s.mode i) s.answers = true) :
    CompletesTaking (replyLengths s.cfg s.mode i).length i s := by
  cases h with
  | command cmd hc hx =>
    rw [replyLengths_command hc] at hs ⊢
    obtain ⟨w, u, hd, hpc, ha⟩ := cmdTxn_serves (cmd := cmd) hs
    exact exec_ok_of_done hx hd ha hpc
  | access frame h3 hr hx =>
    rw [hr] at hs ⊢
    obtain ⟨b, u, hd, ha, hpc⟩ := regTxn_serves h3 hs
    exact exec_ok_of_done hx hd ha hpc
  | writes ws hi hw hx =>
    rw [replyLengths_helper hi] at hs ⊢
    obtain ⟨u, hd, ha, hpc⟩ := writeRegs_serves hw hs
    exact exec_ok_of_done hx hd ha hpc
  | hostOnly v hi hx =>
    rw [replyLengths_hostOnly hi]
    exact ⟨_, v, hx, rfl, rfl, rfl⟩
  | opens b d c v z hi hx =>
    subst hi
    obtain ⟨x, as, ha, -, hs⟩ := serves_cons hs
    obtain ⟨y, bs, rfl, -, hs⟩ := serves_cons hs
    obtain ⟨w, rest, rfl, -, -⟩ := serves_cons hs
    exact exec_ok_of_done hx (openTxn_served ha) (by rw [ha]; rfl) rfl
  | closes hi hx =>
    subst hi
    obtain ⟨x, rest, ha, -, -⟩ := serves_cons hs
    exact exec_ok_of_done hx (closeTxn_returns ha) (by rw [ha]; rfl) rfl

/-! ### Every other ending -/

/-- The operation completes with `Ok`, fails in the transport or hangs. -/
def EndsLegally (i : Instr) (s : State) : Prop :=
  (∃ (t : State) (v : Value), exec i s = .next t ∧ t.result = some (.ok v)) ∨
    (∃ (t : State) (c : FailedCall), exec i s = .next t ∧
      t.result = some (.err (.transport c))) ∨
    exec i s = .fault .transportHang

/-- An attempt that raises transport errors alone completes, fails in the transport or hangs. -/
theorem exec_ends_of_finish {α : Type} {m : Attempt α} {w : α → Value}
    (hx : exec i s = m.finish w) (hm : ∀ e u, m = .raised e u → ∃ c, e = .transport c) :
    EndsLegally i s := by
  cases m with
  | done a u => exact .inl ⟨_, _, hx, rfl⟩
  | raised e u =>
    obtain ⟨c, rfl⟩ := hm e u rfl
    exact .inr (.inl ⟨_, c, hx, rfl⟩)
  | hung => exact .inr (.inr hx)

theorem Runs.ends (h : Runs i s) : EndsLegally i s := by
  cases h with
  | command cmd hc hx =>
    refine exec_ends_of_finish hx fun e u hd => ?_
    obtain ⟨es, c, -, he, -⟩ := cmdTxn_raised hd
    exact ⟨c, he⟩
  | access frame h3 hr hx =>
    refine exec_ends_of_finish hx fun e u hd => ?_
    obtain ⟨es, c, -, he, -⟩ := regTxn_raised hd
    exact ⟨c, he⟩
  | writes ws hi hw hx =>
    refine exec_ends_of_finish hx fun e u hd => ?_
    obtain ⟨k, w, rs, es, c, -, -, -, -, he, -⟩ := writeRegs_aborted hw hd
    exact ⟨c, he⟩
  | hostOnly v hi hx => exact .inl ⟨_, v, hx, rfl⟩
  | opens b d c v z hi hx =>
    refine exec_ends_of_finish hx fun e u hd => ?_
    obtain ⟨es, c, -, he, -⟩ := openTxn_raised hd
    exact ⟨c, he⟩
  | closes hi hx =>
    refine exec_ends_of_finish hx fun e u hd => ?_
    obtain ⟨he, -⟩ := closeTxn_raised hd
    exact ⟨.closeBus, he⟩

/-- Settles O39: what a legal operation runs is served, or ends as its attempt does. -/
theorem everyServedOperationCompletes : Obligations.EveryServedOperationCompletes :=
  fun _ _ hl h => ⟨(runs_of_legal hl h).served, (runs_of_legal hl h).ends⟩

/-! ### Hangs -/

theorem cmdTxn_hangs {cmd : Cmd} (h : s.answers = .hangs :: rest) : cmdTxn cmd s = .hung := by
  rw [cmdTxn, driveCs_hangs h, Attempt.hung_andThen]

theorem regTxn_hangs {frame : List Byte} (h : s.answers = .hangs :: rest) :
    regTxn frame s = .hung := by
  rw [regTxn, driveCs_hangs h, Attempt.hung_andThen]

theorem writeRegs_hangs {ws : List (Nat × Byte)} (hne : ws ≠ []) (hw : allWritable s.cfg ws = true)
    (h : s.answers = .hangs :: rest) : writeRegs ws s = .hung := by
  cases ws with
  | nil => exact absurd rfl hne
  | cons w ws =>
    have hw1 : registerOk s.cfg w.1 .write = true := List.all_eq_true.1 hw w (List.mem_cons_self ..)
    simp [writeRegs, writeReg, hw1, regTxn_hangs h]

theorem openTxn_hangs {b d c v z : Rat} (h : s.answers = .hangs :: rest) :
    openTxn b d c v z s = .hung := by
  rw [openTxn, callTransport_hangs h, Attempt.hung_andThen]

theorem closeTxn_hangs (h : s.answers = .hangs :: rest) : closeTxn s = .hung := by
  simp [closeTxn, callTransport_hangs h]

/-- A legal operation that touches the transport hangs in its first call. -/
theorem Runs.hangs (h : Runs i s) (hno : isHostOnly i = false) (ha : s.answers = .hangs :: rest) :
    exec i s = .fault .transportHang := by
  cases h with
  | command cmd hc hx => rw [hx, cmdTxn_hangs ha, Attempt.finish_hung]
  | access frame h3 hr hx => rw [hx, regTxn_hangs ha, Attempt.finish_hung]
  | writes ws hi hw hx =>
    rw [hx, writeRegs_hangs (helperWrites_ne_nil hi) hw ha, Attempt.finish_hung]
  | hostOnly v hi hx => cases hno.symm.trans hi
  | opens b d c v z hi hx => rw [hx, openTxn_hangs ha, Attempt.finish_hung]
  | closes hi hx => rw [hx, closeTxn_hangs ha, Attempt.finish_hung]

theorem writeReg_hung {addr : Nat} {x : Byte} (h : writeReg addr x s = .hung) : MayHang s := by
  unfold writeReg at h
  split at h
  · exact regTxn_hung h
  · cases h

theorem readReg_hung {addr : Nat} (h : readReg addr s = .hung) : MayHang s := by
  unfold readReg at h
  split at h
  · exact regTxn_hung h
  · cases h

theorem closeTxn_hung (h : closeTxn s = .hung) : MayHang s := by
  unfold closeTxn at h
  split at h
  · cases h
  · cases h
  · exact callTransport_hung ‹_›

theorem runWrites_fault {ws : List (Nat × Byte)} (h : runWrites ws s = .fault r) :
    r = .transportHang ∧ MayHang s := by
  unfold runWrites at h
  split at h
  · cases h
  · exact finish_fault_of_hung h writeRegs_hung

theorem exec_registerOp_fault (hi : isRegisterOp i = true) (hx : exec i s = .fault r) :
    r = .transportHang ∧ MayHang s := by
  cases i <;> simp only [isRegisterOp, Bool.false_eq_true] at hi
  case wreg addr x => exact finish_fault_of_hung (whenOpen_fault hx) writeReg_hung
  case rreg addr => exact finish_fault_of_hung (whenOpen_fault hx) readReg_hung
  case setrange ch n =>
    have hx := whenOpen_fault hx
    split at hx
    · cases hx
    · split at hx
      · cases hx
      · exact runWrites_fault hx
  case setgrange n =>
    have hx := whenOpen_fault hx
    split at hx
    · cases hx
    · exact runWrites_fault hx
  case setseq | setpd | setseqpd => exact runWrites_fault (whenOpen_fault hx)

theorem exec_hostOnly_ne_fault (hi : isHostOnly i = true) : exec i s ≠ .fault r := by
  intro hx
  cases i <;> simp only [isHostOnly, Bool.false_eq_true] at hi
  case getmode | getfeat => cases whenOpen_fault hx
  case r2v | v2r =>
    have hx := whenOpen_fault hx
    split at hx
    · cases hx
    · cases hx

/-- The only fault of an operation is the hang, in a call that may hang. -/
theorem exec_fault (hx : exec i s = .fault r) : r = .transportHang ∧ MayHang s := by
  rcases instr_kinds i with ⟨cmd, hc⟩ | ⟨ch, rfl, hch⟩ | hi | hi | hi | rfl
  · rw [exec_command hc] at hx
    exact finish_fault_of_hung (whenOpen_fault hx) cmdTxn_hung
  · rw [show exec (.manAux ch) s = manualSelect ch s from rfl, manualSelect_illegal hch] at hx
    cases whenOpen_fault hx
  · exact exec_registerOp_fault hi hx
  · exact absurd hx (exec_hostOnly_ne_fault hi)
  · cases i <;> simp only [isOpenOp, Bool.false_eq_true] at hi
    change execOpen _ _ _ _ _ s = _ at hx
    unfold execOpen at hx
    split at hx
    · cases hx
    · split at hx
      · exact finish_fault_of_hung hx openTxn_hung
      · cases hx
  · change execClose s = _ at hx
    unfold execClose at hx
    split at hx
    · cases hx
    · exact finish_fault_of_hung hx closeTxn_hung

/-- Settles O53: a hang ends what a legal operation runs; a next state drew no hang; and a fault
is one. -/
theorem hangHasNoNextState : Obligations.HangHasNoNextState := by
  refine ⟨fun i s rest hl ha hno ho h => ?_, fun b d c v z s rest hl hv ha => ?_,
    fun i s t hx => ?_, fun i s r => exec_fault⟩
  · have hlife : s.life = lifeFor i := by rw [hl, lifeFor, ho]
    exact (runs_of_legal hlife h).hangs hno ha
  · exact (runs_of_legal (i := .openInst b d c v z) hl (decide_eq_true hv)).hangs rfl ha
  · obtain ⟨es, h⟩ := exec_extended hx
    exact h.drawn

end Sys2Proof.Machine
end
